-- ==== Sys2Proof/Word.lean ====
section
/-! DEFINITION. The words of CODEC (rules R4, R5, R6): the fixed widths, and the quotient of naturals
rounded up (R7). CODEC computes on unbounded naturals (R8), so lengths, costs and limits are `Nat`;
a bit vector stands only where the spec fixes a width. -/

namespace Sys2Proof

/-- "an 8-bit byte" (R12): one element of `BIN` and `BOUT`. -/
abbrev Octet := BitVec 8

/-- "a 7-bit character code in the GSM 7-bit alphabet" (R12): a natural below 128 (R6). -/
abbrev Septet := BitVec 7

/-- One text element, a code point of `CPW = 21` bits (R4, R22). All `2^21` values can be loaded. -/
abbrev CodePoint := BitVec 21

/-- One 16-bit value of UCS2, two octets (R12). -/
abbrev CodeUnit := BitVec 16

/-- A text: a sequence of code points (R6). -/
abbrev Text := List CodePoint

/-- `ceil_div(a, b)` of rule R7: the quotient of naturals rounded up, for `b > 0`. -/
def ceilDiv (a b : Nat) : Nat := (a + b - 1) / b

end Sys2Proof
end

