-- ==== Sys2Proof/Config.lean ====
section
/-! DEFINITION. The implementation parameters of rule R4 and the free values of the spec.

`LW` is OPEN in the spec: a command word carries the width of its LIMIT field, and everything that reads one
(decoding, the command port, a step) works for every width (log entry 2).
`T_MAX`, `B_MAX` are OPEN: opaque constants, so nothing proved can depend on their values (log entry 3).
The constant tables of rule R28 are configuration too; they stand in `Sys2Proof/Machine/Tables.lean`. -/

namespace Sys2Proof.Config

/-- `LW` of the words of the spec's examples and of `spec/opcode_table.json`: 16 (R4). Only the words of that
table are read with it; the machine takes words of every width. -/
abbrev tableLimitWidth : Nat := 16

/-- `T_MAX`, the capacity of `TIN` in elements (R4): OPEN, any natural. Log entry 3. DESIGN CHOICE, log entry
16: it is one constant, so the instances of a system (R10, R213) have the same capacity, which the spec leaves
open. -/
opaque tMax : Nat

/-- `B_MAX`, the capacity of `BIN` in octets (R4): OPEN, any natural. Log entry 3. DESIGN CHOICE, log entry 16:
one constant for every instance of a system, as `T_MAX`. -/
opaque bMax : Nat

/-- FREE VALUE. What element `i` of `TIN` reads as when nothing has written it since the last event
that left the contents of `TIN` unspecified; `epoch` counts those events (R34, U13). Log entry 4.
DESIGN CHOICE, log entry 15: it depends on the epoch and the index alone, so two instances (R10) at the same
epoch read the same value there, though the spec gives them only the tables in common. -/
opaque unspecText (epoch i : Nat) : CodePoint

/-- FREE VALUE. The same for element `i` of `BIN` (R34, U13). Log entry 4. DESIGN CHOICE, log entry 15: two
instances (R10) at the same epoch read the same value there, as for `TIN`. -/
opaque unspecOctet (epoch i : Nat) : Octet

end Sys2Proof.Config

namespace Sys2Proof

/-- A command word `CW` with the `LW` of the command port it is written to (R4, R70): `8 + LW` bits. -/
structure CommandWord where
  /-- `LW` (R4). -/
  limitWidth : Nat
  /-- `CW` (R70). -/
  bits : BitVec (limitWidth + 8)
  deriving DecidableEq, Repr

end Sys2Proof
end

