-- ==== Sys2Proof/Syntax.lean ====
section
/-! DEFINITION. The commands of CODEC command set 1 (rules R11, R73): one constructor per row of
`spec/opcode_table.json`, in the table's order. Every command word carries a LIMIT field (R70), so every
constructor does; SSPLIT and ESPLIT use it, ENC, DEC and DCODE ignore it (R72). Keeping the ignored bits
makes a command word and its command determine each other. -/

namespace Sys2Proof

/-- The three codecs (R11). `g7u` is the source's GSM7BIT, `g7p` its GSM7BITPACKED (R79). -/
inductive Codec where
  | g7u
  | g7p
  | ucs2
  deriving DecidableEq, Repr

/-- The five operations (R11): the source's Encode, Decode, ShouldSplit, EncodeSplit, DataCoding (R79). -/
inductive Op where
  | enc
  | dec
  | ssplit
  | esplit
  | dcode
  deriving DecidableEq, Repr

/-- The fifteen commands of rule R73. `limit` is the LIMIT field as a natural number (R72). -/
inductive Instr where
  | g7uEnc (limit : Nat)
  | g7uDec (limit : Nat)
  | g7uSsplit (limit : Nat)
  | g7uEsplit (limit : Nat)
  | g7uDcode (limit : Nat)
  | g7pEnc (limit : Nat)
  | g7pDec (limit : Nat)
  | g7pSsplit (limit : Nat)
  | g7pEsplit (limit : Nat)
  | g7pDcode (limit : Nat)
  | ucs2Enc (limit : Nat)
  | ucs2Dec (limit : Nat)
  | ucs2Ssplit (limit : Nat)
  | ucs2Esplit (limit : Nat)
  | ucs2Dcode (limit : Nat)
  deriving DecidableEq, Repr

/-- The command that codec `c` and operation `o` select, with its LIMIT field. -/
def Instr.of (c : Codec) (o : Op) (limit : Nat) : Instr :=
  match c, o with
  | .g7u, .enc => .g7uEnc limit
  | .g7u, .dec => .g7uDec limit
  | .g7u, .ssplit => .g7uSsplit limit
  | .g7u, .esplit => .g7uEsplit limit
  | .g7u, .dcode => .g7uDcode limit
  | .g7p, .enc => .g7pEnc limit
  | .g7p, .dec => .g7pDec limit
  | .g7p, .ssplit => .g7pSsplit limit
  | .g7p, .esplit => .g7pEsplit limit
  | .g7p, .dcode => .g7pDcode limit
  | .ucs2, .enc => .ucs2Enc limit
  | .ucs2, .dec => .ucs2Dec limit
  | .ucs2, .ssplit => .ucs2Ssplit limit
  | .ucs2, .esplit => .ucs2Esplit limit
  | .ucs2, .dcode => .ucs2Dcode limit

/-- The codec a command belongs to (the CODEC nibble of rule R70). -/
def Instr.codec : Instr → Codec
  | .g7uEnc _ | .g7uDec _ | .g7uSsplit _ | .g7uEsplit _ | .g7uDcode _ => .g7u
  | .g7pEnc _ | .g7pDec _ | .g7pSsplit _ | .g7pEsplit _ | .g7pDcode _ => .g7p
  | .ucs2Enc _ | .ucs2Dec _ | .ucs2Ssplit _ | .ucs2Esplit _ | .ucs2Dcode _ => .ucs2

/-- The operation of a command (the OP nibble of rule R70). -/
def Instr.op : Instr → Op
  | .g7uEnc _ | .g7pEnc _ | .ucs2Enc _ => .enc
  | .g7uDec _ | .g7pDec _ | .ucs2Dec _ => .dec
  | .g7uSsplit _ | .g7pSsplit _ | .ucs2Ssplit _ => .ssplit
  | .g7uEsplit _ | .g7pEsplit _ | .ucs2Esplit _ => .esplit
  | .g7uDcode _ | .g7pDcode _ | .ucs2Dcode _ => .dcode

/-- The LIMIT field of a command (R72). -/
def Instr.limit : Instr → Nat
  | .g7uEnc l | .g7uDec l | .g7uSsplit l | .g7uEsplit l | .g7uDcode l => l
  | .g7pEnc l | .g7pDec l | .g7pSsplit l | .g7pEsplit l | .g7pDcode l => l
  | .ucs2Enc l | .ucs2Dec l | .ucs2Ssplit l | .ucs2Esplit l | .ucs2Dcode l => l

end Sys2Proof
end

