-- ==== Sys2Proof/WellFormed.lean ====
section
/-! DEFINITION. Which commands a command word can express: LIMIT is `0 .. 2^LW - 1` (rule R70); a larger
limit cannot be expressed (U17). That is the only check: every opcode of `Instr` is assigned. -/

namespace Sys2Proof

/-- The command fits a command word whose LIMIT field has `lw` bits (R70). -/
def Instr.wfAt (lw : Nat) (i : Instr) : Bool := decide (i.limit < 2 ^ lw)

end Sys2Proof
end

