-- ==== Sys2Proof/Decode.lean ====
section
/-! DEFINITION. Decoding and encoding of command words (rules R70 to R76), for every LIMIT width `lw`.
The decoder is total (R75): a word is one of the fifteen commands or a reserved encoding, named. -/

namespace Sys2Proof

/-- Why a command word is reserved (R74). Both raise IllegalCommand. -/
inductive Reserved where
  /-- `CODEC` in 3 .. 15, with any `OP`. -/
  | codec (c : BitVec 4)
  /-- `OP` in 5 .. 15, with an assigned `CODEC`. -/
  | op (o : BitVec 4)
  deriving DecidableEq, Repr

/-- `OPC = CW[7:0]` (R70). -/
def opcodeField {lw : Nat} (cw : BitVec (lw + 8)) : BitVec 8 := cw.extractLsb' 0 8

/-- `CODEC = CW[7:4]` (R70). -/
def codecField {lw : Nat} (cw : BitVec (lw + 8)) : BitVec 4 := cw.extractLsb' 4 4

/-- `OP = CW[3:0]` (R70). -/
def opField {lw : Nat} (cw : BitVec (lw + 8)) : BitVec 4 := cw.extractLsb' 0 4

/-- `limit = zext(CW[LW+7:8])` (R70, R72). -/
def limitField {lw : Nat} (cw : BitVec (lw + 8)) : Nat := (cw.extractLsb' 8 lw).toNat

/-- The codec a CODEC nibble selects (R70): 0 G7U, 1 G7P, 2 UCS2; 3 .. 15 are reserved. -/
def codecOfField (n : BitVec 4) : Option Codec :=
  if n = 0#4 then some .g7u
  else if n = 1#4 then some .g7p
  else if n = 2#4 then some .ucs2
  else none

/-- The operation an OP nibble selects (R70): 0 ENC, 1 DEC, 2 SSPLIT, 3 ESPLIT, 4 DCODE; 5 .. 15 are
reserved. -/
def opOfField (n : BitVec 4) : Option Op :=
  if n = 0#4 then some .enc
  else if n = 1#4 then some .dec
  else if n = 2#4 then some .ssplit
  else if n = 3#4 then some .esplit
  else if n = 4#4 then some .dcode
  else none

/-- The decoder, for a LIMIT field of any width (R70, R73, R74, R75). -/
def decodeAt (lw : Nat) (cw : BitVec (lw + 8)) : Except Reserved Instr :=
  match codecOfField (codecField cw) with
  | none => .error (.codec (codecField cw))
  | some c =>
    match opOfField (opField cw) with
    | none => .error (.op (opField cw))
    | some o => .ok (Instr.of c o (limitField cw))

/-- The decoder of the command port, for a port of any width (R75: nothing but the word decides). -/
def decode (cw : CommandWord) : Except Reserved Instr := decodeAt cw.limitWidth cw.bits

/-- The command word the host's row writes, at the table's width: the low `nbits` bits of `w`, zero above
them. CODEC has no program memory (R30, R59): the word goes to the command port whole, in one write (R70). -/
def tableWord (nbits w : Nat) : CommandWord :=
  ⟨Config.tableLimitWidth, BitVec.ofNat (Config.tableLimitWidth + 8) (w % 2 ^ nbits)⟩

/-- The command the decoder reads from a word numbered as the opcode table numbers it. -/
def decodeTableWord (nbits w : Nat) : Option Instr :=
  match decode (tableWord nbits w) with
  | .ok i => some i
  | .error _ => none

/-- The CODEC nibble of a codec (R70). -/
def codecNibble : Codec → BitVec 4
  | .g7u => 0#4
  | .g7p => 1#4
  | .ucs2 => 2#4

/-- The OP nibble of an operation (R70). -/
def opNibble : Op → BitVec 4
  | .enc => 0#4
  | .dec => 1#4
  | .ssplit => 2#4
  | .esplit => 3#4
  | .dcode => 4#4

/-- The opcode byte of a command (R73). -/
def opcodeOf (i : Instr) : BitVec 8 := codecNibble i.codec ++ opNibble i.op

/-- The command word of a command, for a LIMIT field of any width (R70): LIMIT above the opcode byte. -/
def encodeAt (lw : Nat) (i : Instr) : BitVec (lw + 8) := BitVec.ofNat lw i.limit ++ opcodeOf i

/-- The command word of a command at a command port of width `lw`. -/
def encode (lw : Nat) (i : Instr) : CommandWord := ⟨lw, encodeAt lw i⟩

/-- One row of the table of rule R73: a word `w` is the command when `w & mask = match`. -/
structure OpcodeRow where
  mnemonic : String
  mask : BitVec 8
  pattern : BitVec 8
  codec : Codec
  op : Op
  deriving DecidableEq, Repr

/-- The fifteen rows of rule R73. LIMIT is outside every mask. -/
def opcodeTable : List OpcodeRow :=
  [⟨"G7U.ENC", 0xFF#8, 0x00#8, .g7u, .enc⟩, ⟨"G7U.DEC", 0xFF#8, 0x01#8, .g7u, .dec⟩,
   ⟨"G7U.SSPLIT", 0xFF#8, 0x02#8, .g7u, .ssplit⟩, ⟨"G7U.ESPLIT", 0xFF#8, 0x03#8, .g7u, .esplit⟩,
   ⟨"G7U.DCODE", 0xFF#8, 0x04#8, .g7u, .dcode⟩]
  ++ [⟨"G7P.ENC", 0xFF#8, 0x10#8, .g7p, .enc⟩, ⟨"G7P.DEC", 0xFF#8, 0x11#8, .g7p, .dec⟩,
   ⟨"G7P.SSPLIT", 0xFF#8, 0x12#8, .g7p, .ssplit⟩, ⟨"G7P.ESPLIT", 0xFF#8, 0x13#8, .g7p, .esplit⟩,
   ⟨"G7P.DCODE", 0xFF#8, 0x14#8, .g7p, .dcode⟩]
  ++ [⟨"UCS2.ENC", 0xFF#8, 0x20#8, .ucs2, .enc⟩, ⟨"UCS2.DEC", 0xFF#8, 0x21#8, .ucs2, .dec⟩,
   ⟨"UCS2.SSPLIT", 0xFF#8, 0x22#8, .ucs2, .ssplit⟩, ⟨"UCS2.ESPLIT", 0xFF#8, 0x23#8, .ucs2, .esplit⟩,
   ⟨"UCS2.DCODE", 0xFF#8, 0x24#8, .ucs2, .dcode⟩]

/-- The word `cw` is the command of row `r` (R73): the masked bits match. The mask is over the whole word
and is zero on LIMIT. -/
def OpcodeRow.matches {lw : Nat} (r : OpcodeRow) (cw : BitVec (lw + 8)) : Bool :=
  decide (cw &&& r.mask.setWidth (lw + 8) = r.pattern.setWidth (lw + 8))

/-- The mnemonic of a codec (R11). -/
def codecName : Codec → String
  | .g7u => "G7U"
  | .g7p => "G7P"
  | .ucs2 => "UCS2"

/-- The mnemonic of an operation (R11). -/
def opName : Op → String
  | .enc => "ENC"
  | .dec => "DEC"
  | .ssplit => "SSPLIT"
  | .esplit => "ESPLIT"
  | .dcode => "DCODE"

/-- The mnemonic of a command: `CODEC.OP` (R11, R77). -/
def mnemonicOf (i : Instr) : String := codecName i.codec ++ "." ++ opName i.op

/-- A command as rule R77 writes it: `CODEC.OP limit` for SSPLIT and ESPLIT, `CODEC.OP` for the rest. -/
def render (i : Instr) : String :=
  match i.op with
  | .ssplit | .esplit => mnemonicOf i ++ " " ++ toString i.limit
  | .enc | .dec | .dcode => mnemonicOf i

end Sys2Proof
end

