-- ==== Sys2Proof/Machine/State.lean ====
section
/-! DEFINITION. The architectural state of one CODEC instance (rule R20), the host's moves on it (R35),
the reasons a step can stop, and the state after reset (R34).

There is no register file (R29), no program counter (R30) and no condition code (R31). The constant tables
are configuration, not state (R28): `Sys2Proof/Machine/Tables.lean`. The transient cursor, cost and bit
offset of rule R32 do not exist between commands. Three fields are the MODEL's own and not the spec's:
`pending`, `tinEpoch`, `binEpoch` (log entries 1 and 4). -/

namespace Sys2Proof.Machine

/-- The four errors of rule R200. Each ends the command with a NEXT state (R206): it is neither a fault nor
a refusal of the model. -/
inductive ErrorKind where
  /-- A text element outside the codec's repertoire (R201); ENC, SSPLIT, ESPLIT. -/
  | unencodableCharacter
  /-- The octets have "invalid structure for the coding" (R202); DEC. -/
  | malformedInput
  /-- An atomic unit does not fit the limit (R203, R183); ESPLIT. -/
  | segmentLimitTooSmall
  /-- A command word with a reserved opcode byte (R204, R74). -/
  | illegalCommand
  deriving DecidableEq, Repr

/-- The stored elements of an input buffer: (index, value) pairs, indices strictly rising. An index that is
not listed "holds no value" (R34). -/
abbrev Memory (w : Nat) := List (Nat × BitVec w)

/-- What the host may read (R35): everything of rule R20 except the ROM. -/
inductive ReadTarget where
  | status
  | result
  | segCnt
  | segLen (k : Nat)
  | bout (k j : Nat)
  | tLen
  | tout (i : Nat)
  | tinLen
  | tin (i : Nat)
  | binLen
  | bin (i : Nat)
  deriving DecidableEq, Repr

/-- What the host does besides writing the command port (R35, R53: one element an access), and reset (R230). -/
inductive HostMove where
  /-- `TIN[i] <- v`. -/
  | writeTin (i : Nat) (v : CodePoint)
  /-- `TIN_LEN <- n`. -/
  | writeTinLen (n : Nat)
  /-- `BIN[i] <- v`. -/
  | writeBin (i : Nat) (v : Octet)
  /-- `BIN_LEN <- n`. -/
  | writeBinLen (n : Nat)
  /-- A read of one element or register; it has no side effect (R53). -/
  | read (r : ReadTarget)
  /-- Reset (R230). -/
  | reset
  deriving DecidableEq, Repr

/-- One action of the host at the ports of the block. -/
inductive HostAction where
  /-- One write of the command port (R9, R70): it starts one command. -/
  | command (cw : CommandWord)
  /-- Any other move of the host. -/
  | move (m : HostMove)
  deriving DecidableEq, Repr

/-- Why the machine could stop with a fault: never. Every error of the spec (R200) is reported in `STATUS`
and the block goes on (R206, R208), so no step answers a fault; the type has no constructor (log entry 8). -/
inductive Fault where
  deriving DecidableEq, Repr

/-- Why the model answers with no next state. No command is ever refused; the last three are moves of the
HOST that the spec gives no transition (U13, U14). -/
inductive Refusal where
  /-- Raised by an arm of `exec` whose instruction has no meaning yet; no arm does. Safe. -/
  | notModelled (mnemonic : String)
  /-- Raised by a host write of `TIN` or `TIN_LEN` past `T_MAX` (R62, U14: `refuse`). Safe. -/
  | beyondTextCapacity
  /-- Raised by a host write of `BIN` or `BIN_LEN` past `B_MAX` (R62, U14: `refuse`). Safe. -/
  | beyondByteCapacity
  /-- Raised by a host read at or beyond a length register (R34, U13: `refuse`). Safe. -/
  | readBeyondLength
  deriving DecidableEq, Repr

/-- The whole architectural state of one CODEC instance (R20). -/
structure State where
  /-- `TIN`, the stored elements of the text input buffer (R22). -/
  tin : Memory 21
  /-- `TIN_LEN` (R22). -/
  tinLen : Nat
  /-- `BIN`, the stored octets of the byte input buffer (R23). -/
  bin : List Host.Cell
  /-- `BIN_LEN` (R23). -/
  binLen : Nat
  /-- `BOUT`, the segment list (R24). -/
  bout : List (List Octet)
  /-- `SEGCNT` (R24). -/
  segCnt : Nat
  /-- `SEGLEN[k]`, for `k < SEGCNT` (R24). -/
  segLen : List Nat
  /-- `TOUT` (R25). -/
  tout : Text
  /-- `TLEN` (R25). -/
  tLen : Nat
  /-- `RESULT`, 8 bits (R26). -/
  result : BitVec 8
  /-- `STATUS`, 8 bits (R27). -/
  status : BitVec 8
  /-- The MODEL's own: what the host will do next, first action first. The spec keeps no command word
  (R20); here the input of a step stands before the step takes it. Log entry 1. -/
  pending : List HostAction
  /-- The MODEL's own: how often the contents of `TIN` have become unspecified. Log entry 4. -/
  tinEpoch : Nat
  /-- The MODEL's own: how often the contents of `BIN` have become unspecified. Log entry 4. -/
  binEpoch : Nat
  deriving DecidableEq, Repr

/-- The state after reset (R34, R230): `STATUS`, `RESULT` and every length register 0, no buffer element
holding a value. The model's own fields start empty and at 0 (DESIGN CHOICE, log entries 1 and 4). -/
def State.reset : State where
  tin := []
  tinLen := 0
  bin := []
  binLen := 0
  bout := []
  segCnt := 0
  segLen := []
  tout := []
  tLen := 0
  result := 0x00#8
  status := 0x00#8
  pending := []
  tinEpoch := 0
  binEpoch := 0

end Sys2Proof.Machine
end

