-- ==== Sys2Proof/Machine/Flags.lean ====
section
/-! DEFINITION. The `STATUS` register (rule R27): its fields and the two values a command can end with
(R206, and the `STATUS <- 0x80` of every command rule). There are no other flags (R31). -/

namespace Sys2Proof.Machine

/-- The number of an error (R200). -/
def ErrorKind.code : ErrorKind → BitVec 3
  | .unencodableCharacter => 1#3
  | .malformedInput => 2#3
  | .segmentLimitTooSmall => 3#3
  | .illegalCommand => 4#3

/-- `STATUS.DONE`, bit 7 (R27). -/
def statusDone (v : BitVec 8) : Bool := v.getLsbD 7

/-- `STATUS.ERR`, bit 6 (R27). -/
def statusErr (v : BitVec 8) : Bool := v.getLsbD 6

/-- The reserved bits 5:3 of `STATUS` (R27). -/
def statusReserved (v : BitVec 8) : BitVec 3 := v.extractLsb' 3 3

/-- `STATUS.ERRCODE`, bits 2:0 (R27). -/
def statusErrcode (v : BitVec 8) : BitVec 3 := v.extractLsb' 0 3

/-- What `STATUS` holds after a command that ends without error (R27). -/
def okStatus : BitVec 8 := 0x80#8

/-- What `STATUS` holds after a command that raised `e`: `0xC0 | code(e)` (R206). -/
def errorStatus (e : ErrorKind) : BitVec 8 := 0xC0#8 ||| e.code.setWidth 8

end Sys2Proof.Machine
end

