-- ==== Sys2Proof/Machine/Ops.lean ====
section
/-! DEFINITION. The named operations over the buffers and registers (rules R7, R20 to R27, R206): the
stored elements of an input buffer, the writes of the output state, raising an error, and the frame every
command runs in. CODEC has no handler, no vector and no saved context: raising an error (R206) is its whole
exception, and there is nothing to return from (R208). -/

namespace Sys2Proof.Machine

/-- The canonical form of a buffer's stored elements: indices strictly rising. An unlisted index holds no
value, so no entry can equal what an unlisted index reads as. -/
abbrev Memory.wf {w : Nat} (m : Memory w) : Prop := m.Pairwise (fun p q => p.1 < q.1)

/-- The value stored at index `i`, if one is. -/
def Memory.lookup {w : Nat} : Memory w → Nat → Option (BitVec w)
  | [], _ => none
  | (a, v) :: m, i => if i = a then some v else Memory.lookup m i

/-- Store `v` at index `i`, keeping the canonical form. -/
def Memory.write {w : Nat} : Memory w → Nat → BitVec w → Memory w
  | [], i, v => [(i, v)]
  | (a, u) :: m, i, v =>
    if i < a then (i, v) :: (a, u) :: m
    else if i = a then (i, v) :: m
    else (a, u) :: Memory.write m i v

/-- Keep the elements below index `n`; those at or beyond it hold no value any more (R34). -/
def Memory.below {w : Nat} (m : Memory w) (n : Nat) : Memory w := m.filter (fun p => decide (p.1 < n))

/-- `BOUT <- segs` (R24): sets `SEGCNT`, every `SEGLEN[k]` and the octets of every segment. -/
def writeBout (segs : List (List Octet)) (s : State) : State :=
  { s with bout := segs, segCnt := segs.length, segLen := segs.map List.length }

/-- `TOUT <- text` (R25): sets `TLEN` and every element. -/
def writeTout (t : Text) (s : State) : State := { s with tout := t, tLen := t.length }

/-- `RESULT <- v` (R26). -/
def writeResult (v : BitVec 8) (s : State) : State := { s with result := v }

/-- `STATUS <- v` (R27); only the engine writes it. -/
def writeStatus (v : BitVec 8) (s : State) : State := { s with status := v }

/-- What every command does first (R33): `RESULT <- 0`, `BOUT <- []`, `TOUT <- []`. -/
def clearOutputs (s : State) : State := writeTout [] (writeBout [] (writeResult 0x00#8 s))

/-- `raise E` (R206): the outputs are cleared and `STATUS <- 0xC0 | code(E)`. The inputs are unchanged and
the block is ready for the next command (R208). -/
def raise (e : ErrorKind) (s : State) : State := writeStatus (errorStatus e) (clearOutputs s)

/-- One command (R33, R206): clear the outputs, do the work the command rule gives, then either write its
results and `STATUS <- 0x80`, or raise the error it met. It is one atomic step (R9). -/
def runCommand {α : Type} (work : Except ErrorKind α) (write : α → State → State) (s : State) :
    Host.Outcome State Fault Refusal :=
  match work with
  | .ok a => .next (writeStatus okStatus (write a (clearOutputs s)))
  | .error e => .next (raise e s)

end Sys2Proof.Machine
end

