-- ==== Sys2Proof/Machine/Operands.lean ====
section
/-! DEFINITION. The operand forms (rules R22, R23, R61, R72). A command names no register (R29): its
operands are the LIMIT field of the command word, the text in `TIN` and the octets in `BIN`. An element
below the length register that nothing has written reads as a free value (R34, U13; log entry 4). -/

namespace Sys2Proof.Machine

/-- `TIN[i]` (R22, R53). -/
def readTin (s : State) (i : Nat) : CodePoint :=
  match Memory.lookup s.tin i with
  | some v => v
  | none => Config.unspecText s.tinEpoch i

/-- `BIN[i]` (R23, R53). -/
def readBin (s : State) (i : Nat) : Octet :=
  match Memory.lookup s.bin i with
  | some v => v
  | none => Config.unspecOctet s.binEpoch i

/-- The text operand `TIN[0 .. TIN_LEN)` (R22): only indices below `TIN_LEN` are read (R61). -/
def textOperand (s : State) : Text := (List.range s.tinLen).map (readTin s)

/-- The byte operand `BIN[0 .. BIN_LEN)` (R23): only indices below `BIN_LEN` are read (R61). -/
def byteOperand (s : State) : List Octet := (List.range s.binLen).map (readBin s)

end Sys2Proof.Machine
end

