-- ==== Sys2Proof/Machine/Tables.lean ====
section
/-! DEFINITION. The constant tables and constants of rules R28, R90, R91, R92, R188. They are configuration
(R28): no command writes them and the host has no path to them. The spec supplies every entry but seven from
general knowledge (G1 to G3, log entry 5); rule R94 says what a proof should lean on. -/

namespace Sys2Proof.Machine

/-- `ESC`, the escape septet (R90). -/
def escSeptet : Septet := 0x1B#7

/-- `CR`, the filler septet (R90, R135). -/
def crSeptet : Septet := 0x0D#7

/-- `ID_GSM7`, the coding identifier of G7U and G7P (R4, R188). -/
def idGsm7 : BitVec 8 := 0#8

/-- `ID_UCS2`, the coding identifier of UCS2 (R4, R188). -/
def idUcs2 : BitVec 8 := 8#8

/-- Septets `0x00 .. 0x0F` of `ROM_BASIC` (R91). -/
def romBasic0 : List (Option CodePoint) :=
  [some 0x0040#21, some 0x00A3#21, some 0x0024#21, some 0x00A5#21,
   some 0x00E8#21, some 0x00E9#21, some 0x00F9#21, some 0x00EC#21,
   some 0x00F2#21, some 0x00C7#21, some 0x000A#21, some 0x00D8#21,
   some 0x00F8#21, some 0x000D#21, some 0x00C5#21, some 0x00E5#21]

/-- Septets `0x10 .. 0x1F` of `ROM_BASIC` (R91). -/
def romBasic1 : List (Option CodePoint) :=
  [some 0x0394#21, some 0x005F#21, some 0x03A6#21, some 0x0393#21,
   some 0x039B#21, some 0x03A9#21, some 0x03A0#21, some 0x03A8#21,
   some 0x03A3#21, some 0x0398#21, some 0x039E#21, none,
   some 0x00C6#21, some 0x00E6#21, some 0x00DF#21, some 0x00C9#21]

/-- Septets `0x20 .. 0x2F` of `ROM_BASIC` (R91). -/
def romBasic2 : List (Option CodePoint) :=
  [some 0x0020#21, some 0x0021#21, some 0x0022#21, some 0x0023#21,
   some 0x00A4#21, some 0x0025#21, some 0x0026#21, some 0x0027#21,
   some 0x0028#21, some 0x0029#21, some 0x002A#21, some 0x002B#21,
   some 0x002C#21, some 0x002D#21, some 0x002E#21, some 0x002F#21]

/-- Septets `0x30 .. 0x3F` of `ROM_BASIC` (R91). -/
def romBasic3 : List (Option CodePoint) :=
  [some 0x0030#21, some 0x0031#21, some 0x0032#21, some 0x0033#21,
   some 0x0034#21, some 0x0035#21, some 0x0036#21, some 0x0037#21,
   some 0x0038#21, some 0x0039#21, some 0x003A#21, some 0x003B#21,
   some 0x003C#21, some 0x003D#21, some 0x003E#21, some 0x003F#21]

/-- Septets `0x40 .. 0x4F` of `ROM_BASIC` (R91). -/
def romBasic4 : List (Option CodePoint) :=
  [some 0x00A1#21, some 0x0041#21, some 0x0042#21, some 0x0043#21,
   some 0x0044#21, some 0x0045#21, some 0x0046#21, some 0x0047#21,
   some 0x0048#21, some 0x0049#21, some 0x004A#21, some 0x004B#21,
   some 0x004C#21, some 0x004D#21, some 0x004E#21, some 0x004F#21]

/-- Septets `0x50 .. 0x5F` of `ROM_BASIC` (R91). -/
def romBasic5 : List (Option CodePoint) :=
  [some 0x0050#21, some 0x0051#21, some 0x0052#21, some 0x0053#21,
   some 0x0054#21, some 0x0055#21, some 0x0056#21, some 0x0057#21,
   some 0x0058#21, some 0x0059#21, some 0x005A#21, some 0x00C4#21,
   some 0x00D6#21, some 0x00D1#21, some 0x00DC#21, some 0x00A7#21]

/-- Septets `0x60 .. 0x6F` of `ROM_BASIC` (R91). -/
def romBasic6 : List (Option CodePoint) :=
  [some 0x00BF#21, some 0x0061#21, some 0x0062#21, some 0x0063#21,
   some 0x0064#21, some 0x0065#21, some 0x0066#21, some 0x0067#21,
   some 0x0068#21, some 0x0069#21, some 0x006A#21, some 0x006B#21,
   some 0x006C#21, some 0x006D#21, some 0x006E#21, some 0x006F#21]

/-- Septets `0x70 .. 0x7F` of `ROM_BASIC` (R91). -/
def romBasic7 : List (Option CodePoint) :=
  [some 0x0070#21, some 0x0071#21, some 0x0072#21, some 0x0073#21,
   some 0x0074#21, some 0x0075#21, some 0x0076#21, some 0x0077#21,
   some 0x0078#21, some 0x0079#21, some 0x007A#21, some 0x00E4#21,
   some 0x00F6#21, some 0x00F1#21, some 0x00FC#21, some 0x00E0#21]

/-- `ROM_BASIC` (R28, R91): the code point of each septet code, and `none` for the escape mark. -/
def romBasic : List (Option CodePoint) :=
  romBasic0 ++ romBasic1 ++ romBasic2 ++ romBasic3 ++ romBasic4 ++ romBasic5 ++ romBasic6 ++ romBasic7

/-- `ROM_EXT` (R28, R92): the ten code septets and their code points. -/
def romExt : List (Septet × CodePoint) :=
  [(0x0A#7, 0x000C#21), (0x14#7, 0x005E#21), (0x28#7, 0x007B#21), (0x29#7, 0x007D#21),
   (0x2F#7, 0x005C#21), (0x3C#7, 0x005B#21), (0x3D#7, 0x007E#21), (0x3E#7, 0x005D#21),
   (0x40#7, 0x007C#21), (0x65#7, 0x20AC#21)]

end Sys2Proof.Machine
end

