-- ==== Sys2Proof/Machine/Gsm7.lean ====
section
/-! DEFINITION. Septet lookup (rules R93, R96, R97): text to septets and septets to text, the two functions
every septet command is built from. -/

namespace Sys2Proof.Machine

/-- `BASIC_DEC(c)` (R91): the entry of `ROM_BASIC`; `none` for the escape mark. -/
def basicDec (c : Septet) : Option CodePoint := (romBasic[c.toNat]?).join

/-- The index, counted from `n`, of the first entry that is `cp`. -/
def indexOfEntry (cp : CodePoint) : List (Option CodePoint) → Nat → Option Nat
  | [], _ => none
  | e :: es, n => if e = some cp then some n else indexOfEntry cp es (n + 1)

/-- `BASIC_ENC(cp)` (R91): the inverse of `BASIC_DEC`. Exact match, no normalization (R93). -/
def basicEnc (cp : CodePoint) : Option Septet :=
  (indexOfEntry cp romBasic 0).map (BitVec.ofNat 7)

/-- `EXT_DEC(c)` (R92). -/
def extDec (c : Septet) : Option CodePoint := (romExt.find? (fun p => p.1 == c)).map Prod.snd

/-- `EXT_ENC(cp)` (R92): the inverse of `EXT_DEC`. -/
def extEnc (cp : CodePoint) : Option Septet := (romExt.find? (fun p => p.2 == cp)).map Prod.fst

/-- `Unit7(cp)` (R93): the septets of one character, one atomic unit (R180). -/
def unit7 (cp : CodePoint) : Except ErrorKind (List Septet) :=
  match basicEnc cp with
  | some c => .ok [c]
  | none =>
    match extEnc cp with
    | some c => .ok [escSeptet, c]
    | none => .error .unencodableCharacter

/-- The units of a text, looked up in index order: the error of the first character that has none is the
one raised (R96, R162). -/
def lookupAll {β : Type} (unit : CodePoint → Except ErrorKind β) : Text → Except ErrorKind (List β)
  | [] => .ok []
  | cp :: rest =>
    match unit cp with
    | .error e => .error e
    | .ok u =>
      match lookupAll unit rest with
      | .error e => .error e
      | .ok us => .ok (u :: us)

/-- `Units7(text)` (R96). -/
def units7 (t : Text) : Except ErrorKind (List (List Septet)) := lookupAll unit7 t

/-- `EncodeSeptets(text) = concat(Units7(text))` (R96). -/
def encodeSeptets (t : Text) : Except ErrorKind (List Septet) := (units7 t).map List.flatten

/-- `SeptetCount(text) = len(EncodeSeptets(text))` (R96). -/
def septetCount (t : Text) : Except ErrorKind Nat := (encodeSeptets t).map List.length

/-- `DecodeSeptets(S)` for a sequence of values below 256 (R97): (1) a value above `0x7F`, (2) an orphan
escape, (3) an escape and a code with no Extension entry are MalformedInput. The septet after an escape is
consumed with it. `ROM_BASIC` has an entry for every code but `ESC` (R94 (a)), so the arm for a Basic code
without one is never taken. -/
def decodeSeptets : List Octet → Except ErrorKind Text
  | [] => .ok []
  | b :: rest =>
    if 0x7F < b.toNat then .error .malformedInput
    else if b.setWidth 7 = escSeptet then
      match rest with
      | [] => .error .malformedInput
      | c :: rest' =>
        if 0x7F < c.toNat then .error .malformedInput
        else
          match extDec (c.setWidth 7) with
          | none => .error .malformedInput
          | some cp => (decodeSeptets rest').map (cp :: ·)
    else
      match basicDec (b.setWidth 7) with
      | none => .error .malformedInput
      | some cp => (decodeSeptets rest).map (cp :: ·)

/-- A septet as the octet the unpacked wire form gives it: bit 7 is 0 (R51). -/
def septetOctet (c : Septet) : Octet := c.setWidth 8

end Sys2Proof.Machine
end

