-- ==== Sys2Proof/Machine/Packer.lean ====
section
/-! DEFINITION. The packer and the unpacker of the packed septet form (rules R130 to R135), each in the bit
stream form the machine runs (R130, R132) and in the shift and mask form the spec gives beside it (R131,
R133). Every octet sequence is its own bit stream, starting at bit 0 (R141). -/

namespace Sys2Proof.Machine

/-- `sum over b in 0 .. n-1 of f(b) * 2^b` (R130, R132). -/
def bitSum (f : Nat → Bool) : Nat → Nat
  | 0 => 0
  | n + 1 => bitSum f n + (f n).toNat * 2 ^ n

/-- `PackedLen(n) = ceil_div(7 * n, 8)` (R134). -/
def packedLen (n : Nat) : Nat := ceilDiv (7 * n) 8

/-- `MaxSeptets(L) = floor_div(8 * L, 7)` (R134). -/
def maxSeptets (limit : Nat) : Nat := 8 * limit / 7

/-- `Fill(n)` (R135): 1 when `n mod 8 = 7`, else 0. -/
def fill (n : Nat) : Nat := if n % 8 = 7 then 1 else 0

/-- Bit `k` of a sequence of `w`-bit values laid end to end, least significant bit first; 0 past its end
(R51, R130, R132). -/
def streamBit {w : Nat} (xs : List (BitVec w)) (k : Nat) : Bool := (xs.getD (k / w) 0#w).getLsbD (k % w)

/-- `Pack(S)` (R130). -/
def pack (S : List Septet) : List Octet :=
  (List.range (packedLen S.length)).map
    (fun j => BitVec.ofNat 8 (bitSum (fun b => streamBit S (8 * j + b)) 8))

/-- The octet made at septet index `i` in the shift and mask form (R131); index 7 of a group makes none. -/
def packShiftAt (S : List Septet) (i : Nat) : List Octet :=
  if i % 8 = 7 then []
  else [BitVec.ofNat 8 (((S.getD i 0#7).toNat >>> (i % 8) ||| (S.getD (i + 1) 0#7).toNat <<< (7 - i % 8)) % 256)]

/-- `Pack(S)` as shift and mask over the septet index (R131). -/
def packShift (S : List Septet) : List Octet := (List.range S.length).flatMap (packShiftAt S)

/-- `Unpack(B)` (R132): every whole septet the octets contain; the left-over high bits are ignored and
nothing is stripped. -/
def unpack (B : List Octet) : List Septet :=
  (List.range (8 * B.length / 7)).map
    (fun i => BitVec.ofNat 7 (bitSum (fun b => streamBit B (7 * i + b)) 7))

/-- Septet `i` of the octets in the shift and mask form (R133). -/
def unpackShiftAt (B : List Octet) (i : Nat) : Septet :=
  BitVec.ofNat 7
    (((B.getD (7 * i / 8) 0#8).toNat >>> (7 * i % 8)
      ||| (B.getD (7 * i / 8 + 1) 0#8).toNat <<< (8 - 7 * i % 8)) % 128)

/-- `Unpack(B)` as shift and mask (R133). -/
def unpackShift (B : List Octet) : List Septet :=
  (List.range (8 * B.length / 7)).map (unpackShiftAt B)

/-- A segment's septets with the filler of rule R135: `Fill(n)` septets of value `CR` after them. -/
def withFiller (S : List Septet) : List Septet := S ++ List.replicate (fill S.length) crSeptet

end Sys2Proof.Machine
end

