-- ==== Sys2Proof/Machine/Ucs2Code.lean ====
section
/-! DEFINITION. UCS2 as UTF-16 big-endian (rules R160 to R163): one character to octets and octets to
characters. No byte-order marker is written or stripped (R170). -/

namespace Sys2Proof.Machine

/-- The octets of one code unit, high octet first (R51, R160). -/
def unitOctets (u : CodeUnit) : List Octet := [u.extractLsb' 8 8, u.extractLsb' 0 8]

/-- The high surrogate of a code point at or above `0x10000` (R161): `0xD800 + v[19:10]`. -/
def highSurrogate (cp : CodePoint) : CodeUnit :=
  BitVec.ofNat 16 (0xD800 + (cp.toNat - 0x10000) / 2 ^ 10 % 2 ^ 10)

/-- The low surrogate of a code point at or above `0x10000` (R161): `0xDC00 + v[9:0]`. -/
def lowSurrogate (cp : CodePoint) : CodeUnit :=
  BitVec.ofNat 16 (0xDC00 + (cp.toNat - 0x10000) % 2 ^ 10)

/-- `UnitU(cp)` (R162): the atomic unit of one character (R180). -/
def unitU (cp : CodePoint) : Except ErrorKind (List Octet) :=
  if cp.toNat ≤ 0xD7FF ∨ (0xE000 ≤ cp.toNat ∧ cp.toNat ≤ 0xFFFF) then
    .ok (unitOctets (cp.extractLsb' 0 16))
  else if 0x10000 ≤ cp.toNat ∧ cp.toNat ≤ 0x10FFFF then
    .ok (unitOctets (highSurrogate cp) ++ unitOctets (lowSurrogate cp))
  else .error .unencodableCharacter

/-- `UnitsU(text)` (R162). -/
def unitsU (t : Text) : Except ErrorKind (List (List Octet)) := lookupAll unitU t

/-- `EncodeU(text) = concat(UnitsU(text))` (R162). -/
def encodeU (t : Text) : Except ErrorKind (List Octet) := (unitsU t).map List.flatten

/-- `ByteLen(text) = len(EncodeU(text))` (R162). -/
def byteLen (t : Text) : Except ErrorKind Nat := (encodeU t).map List.length

/-- The big-endian code units of an octet sequence (R163): `u(k) = B[2k] * 256 + B[2k+1]`. An odd last octet
makes no unit; `decodeU` has refused it before. -/
def codeUnits : List Octet → List CodeUnit
  | hi :: lo :: rest => BitVec.ofNat 16 (hi.toNat * 256 + lo.toNat) :: codeUnits rest
  | _ => []

/-- The loop of `DecodeU` over code units (R163). -/
def decodeUnits : List CodeUnit → Except ErrorKind Text
  | [] => .ok []
  | a :: rest =>
    if 0xD800 ≤ a.toNat ∧ a.toNat ≤ 0xDBFF then
      match rest with
      | [] => .error .malformedInput
      | b :: rest' =>
        if 0xDC00 ≤ b.toNat ∧ b.toNat ≤ 0xDFFF then
          (decodeUnits rest').map
            (BitVec.ofNat 21 (0x10000 + (a.toNat - 0xD800) * 0x400 + (b.toNat - 0xDC00)) :: ·)
        else .error .malformedInput
    else if 0xDC00 ≤ a.toNat ∧ a.toNat ≤ 0xDFFF then .error .malformedInput
    else (decodeUnits rest).map (a.setWidth 21 :: ·)

/-- `DecodeU(B)` (R163): the length is tested first. -/
def decodeU (B : List Octet) : Except ErrorKind Text :=
  if B.length % 2 = 1 then .error .malformedInput else decodeUnits (codeUnits B)

end Sys2Proof.Machine
end

