-- ==== Sys2Proof/Machine/Segment.lean ====
section
/-! DEFINITION. The segmentation walk that the three ESPLIT commands share (rules R181, R183), and what
each of them emits for a text (R113, R139, R167). The text is looked up whole first, so
UnencodableCharacter anywhere comes before SegmentLimitTooSmall anywhere (R207). -/

namespace Sys2Proof.Machine

/-- The loop of `Segment` (R181): `segs` are the closed segments, `g` the one being filled, `cur` its cost. -/
def segmentWalk {υ : Type} (cost : υ → Nat) (fits : Nat → Bool) :
    List υ → List (List υ) → List υ → Nat → Except ErrorKind (List (List υ))
  | [], segs, g, _ => .ok (if g.isEmpty then segs else segs ++ [g])
  | u :: us, segs, g, cur =>
    if fits (cost u) = false then .error .segmentLimitTooSmall
    else if fits (cur + cost u) = false then segmentWalk cost fits us (segs ++ [g]) [u] (cost u)
    else segmentWalk cost fits us segs (g ++ [u]) (cur + cost u)

/-- `Segment(U, cost, fits)` (R181). -/
def segment {υ : Type} (cost : υ → Nat) (fits : Nat → Bool) (U : List υ) :
    Except ErrorKind (List (List υ)) :=
  segmentWalk cost fits U [] [] 0

/-- `fits` of G7U.ESPLIT and UCS2.ESPLIT (R181): `n <= limit`. -/
def fitsOctets (limit n : Nat) : Bool := decide (n ≤ limit)

/-- `fits` of G7P.ESPLIT (R181): `PackedLen(n) <= limit`. -/
def fitsPacked (limit n : Nat) : Bool := decide (packedLen n ≤ limit)

/-- The units of each segment of a text for one codec: look the whole text up, then walk (R207). -/
def segmentText {β : Type} (units : Text → Except ErrorKind (List (List β))) (fits : Nat → Bool)
    (t : Text) : Except ErrorKind (List (List (List β))) :=
  match units t with
  | .error e => .error e
  | .ok U => segment List.length fits U

/-- The segments of G7U.ESPLIT (R113): each in unpacked form, never filled. -/
def splitG7u (limit : Nat) (t : Text) : Except ErrorKind (List (List Octet)) :=
  (segmentText units7 (fitsOctets limit) t).map (List.map (fun g => g.flatten.map septetOctet))

/-- The segments of G7P.ESPLIT (R139): each filled (R135) and packed from bit offset 0 (R141). -/
def splitG7p (limit : Nat) (t : Text) : Except ErrorKind (List (List Octet)) :=
  (segmentText units7 (fitsPacked limit) t).map (List.map (fun g => pack (withFiller g.flatten)))

/-- The segments of UCS2.ESPLIT (R167). -/
def splitUcs2 (limit : Nat) (t : Text) : Except ErrorKind (List (List Octet)) :=
  (segmentText unitsU (fitsOctets limit) t).map (List.map List.flatten)

end Sys2Proof.Machine
end

