-- ==== Sys2Proof/Machine/Commands.lean ====
section
/-! DEFINITION. The five operations, once each, over what a codec supplies (rules R11, R110 to R114, R136 to
R140, R164 to R168). -/

namespace Sys2Proof.Machine

/-- ENC: `BOUT` is one segment, the encoding of the text; it may be empty (R24). -/
def encodeCommand (enc : Text → Except ErrorKind (List Octet)) (s : State) :
    Host.Outcome State Fault Refusal :=
  runCommand (enc (textOperand s)) (fun octets => writeBout [octets]) s

/-- DEC: `TOUT` is the decoding of the octets (R25). -/
def decodeCommand (dec : List Octet → Except ErrorKind Text) (s : State) :
    Host.Outcome State Fault Refusal :=
  runCommand (dec (byteOperand s)) writeTout s

/-- SSPLIT: `RESULT` is 1 when the size in octets of the encoded text exceeds `limit`, else 0 (R26). -/
def shouldSplitCommand (size : Text → Except ErrorKind Nat) (limit : Nat) (s : State) :
    Host.Outcome State Fault Refusal :=
  runCommand (size (textOperand s)) (fun n => writeResult (if limit < n then 0x01#8 else 0x00#8)) s

/-- ESPLIT: `BOUT` is the list of segments of the text (R24). -/
def splitCommand (split : Text → Except ErrorKind (List (List Octet))) (s : State) :
    Host.Outcome State Fault Refusal :=
  runCommand (split (textOperand s)) writeBout s

/-- DCODE: `RESULT` is the coding identifier (R26, R188); nothing is read and nothing raised (R200). -/
def dataCodingCommand (id : BitVec 8) (s : State) : Host.Outcome State Fault Refusal :=
  runCommand (.ok id) writeResult s

end Sys2Proof.Machine
end

