-- ==== Sys2Proof/Machine/G7p.lean ====
section
/-! DEFINITION. The five commands of G7P, the bit-packed septet codec (rules R136 to R140). -/

namespace Sys2Proof.Machine

/-- G7P.ENC (R136): the septets packed, with no filler. -/
def execG7pEnc (s : State) : Host.Outcome State Fault Refusal :=
  encodeCommand (fun t => (encodeSeptets t).map pack) s

/-- G7P.DEC (R137): the octets are one bit stream from bit offset 0 (R141); nothing is stripped. -/
def execG7pDec (s : State) : Host.Outcome State Fault Refusal :=
  decodeCommand (fun B => decodeSeptets ((unpack B).map septetOctet)) s

/-- G7P.SSPLIT (R138): the size is the packed octet count; the filler plays no part. -/
def execG7pSsplit (limit : Nat) (s : State) : Host.Outcome State Fault Refusal :=
  shouldSplitCommand (fun t => (septetCount t).map packedLen) limit s

/-- G7P.ESPLIT (R139). -/
def execG7pEsplit (limit : Nat) (s : State) : Host.Outcome State Fault Refusal :=
  splitCommand (splitG7p limit) s

/-- G7P.DCODE (R140): the same identifier as G7U.DCODE. -/
def execG7pDcode (s : State) : Host.Outcome State Fault Refusal :=
  dataCodingCommand idGsm7 s

end Sys2Proof.Machine
end

