-- ==== Sys2Proof/Machine/G7u.lean ====
section
/-! DEFINITION. The five commands of G7U, the unpacked septet codec (rules R110 to R114). -/

namespace Sys2Proof.Machine

/-- G7U.ENC (R110): one octet per septet, bit 7 zero. -/
def execG7uEnc (s : State) : Host.Outcome State Fault Refusal :=
  encodeCommand (fun t => (encodeSeptets t).map (List.map septetOctet)) s

/-- G7U.DEC (R111). -/
def execG7uDec (s : State) : Host.Outcome State Fault Refusal :=
  decodeCommand decodeSeptets s

/-- G7U.SSPLIT (R112): one octet per septet, so the septet count is the size. -/
def execG7uSsplit (limit : Nat) (s : State) : Host.Outcome State Fault Refusal :=
  shouldSplitCommand septetCount limit s

/-- G7U.ESPLIT (R113). -/
def execG7uEsplit (limit : Nat) (s : State) : Host.Outcome State Fault Refusal :=
  splitCommand (splitG7u limit) s

/-- G7U.DCODE (R114). -/
def execG7uDcode (s : State) : Host.Outcome State Fault Refusal :=
  dataCodingCommand idGsm7 s

end Sys2Proof.Machine
end

