-- ==== Sys2Proof/Machine/Ucs2.lean ====
section
/-! DEFINITION. The five commands of UCS2 (rules R164 to R168). -/

namespace Sys2Proof.Machine

/-- UCS2.ENC (R164). -/
def execUcs2Enc (s : State) : Host.Outcome State Fault Refusal :=
  encodeCommand encodeU s

/-- UCS2.DEC (R165). -/
def execUcs2Dec (s : State) : Host.Outcome State Fault Refusal :=
  decodeCommand decodeU s

/-- UCS2.SSPLIT (R166). -/
def execUcs2Ssplit (limit : Nat) (s : State) : Host.Outcome State Fault Refusal :=
  shouldSplitCommand byteLen limit s

/-- UCS2.ESPLIT (R167). -/
def execUcs2Esplit (limit : Nat) (s : State) : Host.Outcome State Fault Refusal :=
  splitCommand (splitUcs2 limit) s

/-- UCS2.DCODE (R168). -/
def execUcs2Dcode (s : State) : Host.Outcome State Fault Refusal :=
  dataCodingCommand idUcs2 s

end Sys2Proof.Machine
end

