-- ==== Sys2Proof/Machine/Dispatch.lean ====
section
/-! DEFINITION. One command, by its constructor (rule R73). -/

namespace Sys2Proof.Machine

def exec (i : Instr) (s : State) : Host.Outcome State Fault Refusal :=
  match i with
  | .g7uEnc _ => Sys2Proof.Machine.execG7uEnc s
  | .g7uDec _ => Sys2Proof.Machine.execG7uDec s
  | .g7uSsplit limit => Sys2Proof.Machine.execG7uSsplit limit s
  | .g7uEsplit limit => Sys2Proof.Machine.execG7uEsplit limit s
  | .g7uDcode _ => Sys2Proof.Machine.execG7uDcode s
  | .g7pEnc _ => Sys2Proof.Machine.execG7pEnc s
  | .g7pDec _ => Sys2Proof.Machine.execG7pDec s
  | .g7pSsplit limit => Sys2Proof.Machine.execG7pSsplit limit s
  | .g7pEsplit limit => Sys2Proof.Machine.execG7pEsplit limit s
  | .g7pDcode _ => Sys2Proof.Machine.execG7pDcode s
  | .ucs2Enc _ => Sys2Proof.Machine.execUcs2Enc s
  | .ucs2Dec _ => Sys2Proof.Machine.execUcs2Dec s
  | .ucs2Ssplit limit => Sys2Proof.Machine.execUcs2Ssplit limit s
  | .ucs2Esplit limit => Sys2Proof.Machine.execUcs2Esplit limit s
  | .ucs2Dcode _ => Sys2Proof.Machine.execUcs2Dcode s

end Sys2Proof.Machine
end

