-- ==== Sys2Proof/Machine/Issue.lean ====
section
/-! DEFINITION. One write of the command port (rules R9, R70, R74, R204). -/

namespace Sys2Proof.Machine

/-- One write of the command port: the command of rule R73, or IllegalCommand for a reserved opcode byte,
decided from the command word alone (R74, R204, R207). -/
def issue (cw : CommandWord) (s : State) : Host.Outcome State Fault Refusal :=
  match decode cw with
  | .ok i => exec i s
  | .error _ => .next (raise .illegalCommand s)

end Sys2Proof.Machine
end

