-- ==== Sys2Proof/Machine/Port.lean ====
section
/-! DEFINITION. The host's side of the block (rules R9, R22, R23, R34, R35, R53, R62, R230): what each host
move does, and how a step takes the next action of the host. -/

namespace Sys2Proof.Machine

/-- `TIN_LEN <- n`. Lowering it leaves the elements at or beyond it without a value (R34); raising it keeps
what the host stored there before (R231: the buffer is written, then its length register). Log entry 4. -/
def setTinLen (n : Nat) (s : State) : State :=
  if n < s.tinLen then { s with tin := Memory.below s.tin n, tinLen := n, tinEpoch := s.tinEpoch + 1 }
  else { s with tinLen := n }

/-- `BIN_LEN <- n`, as `setTinLen`. -/
def setBinLen (n : Nat) (s : State) : State :=
  if n < s.binLen then { s with bin := Memory.below s.bin n, binLen := n, binEpoch := s.binEpoch + 1 }
  else { s with binLen := n }

/-- Reset of a running block (R230): every register and length at its reset value, every buffer element
unspecified again. What the host will do next is the host's and stays. -/
def resetBlock (s : State) : State :=
  { State.reset with pending := s.pending, tinEpoch := s.tinEpoch + 1, binEpoch := s.binEpoch + 1 }

/-- What the host sees when it reads (R35, R50), as a number; `none` at or beyond a length register, where
the spec gives no value (R34, U13). -/
def hostRead (r : ReadTarget) (s : State) : Option Nat :=
  match r with
  | .status => some s.status.toNat
  | .result => some s.result.toNat
  | .segCnt => some s.segCnt
  | .segLen k => if k < s.segCnt then s.segLen[k]? else none
  | .bout k j => if k < s.segCnt then ((s.bout[k]?).bind (fun g => g[j]?)).map BitVec.toNat else none
  | .tLen => some s.tLen
  | .tout i => if i < s.tLen then (s.tout[i]?).map BitVec.toNat else none
  | .tinLen => some s.tinLen
  | .tin i => if i < s.tinLen then some (readTin s i).toNat else none
  | .binLen => some s.binLen
  | .bin i => if i < s.binLen then some (readBin s i).toNat else none

/-- One move of the host (R35). A load past a capacity and a read past a length have no transition (U13,
U14: `refuse`). -/
def hostMove (m : HostMove) (s : State) : Host.Outcome State Fault Refusal :=
  match m with
  | .writeTin i v =>
    if i < Config.tMax then .next { s with tin := Memory.write s.tin i v } else .refused .beyondTextCapacity
  | .writeTinLen n =>
    if n ≤ Config.tMax then .next (setTinLen n s) else .refused .beyondTextCapacity
  | .writeBin i v =>
    if i < Config.bMax then .next { s with bin := Memory.write s.bin i v } else .refused .beyondByteCapacity
  | .writeBinLen n =>
    if n ≤ Config.bMax then .next (setBinLen n s) else .refused .beyondByteCapacity
  | .read r => if (hostRead r s).isSome then .next s else .refused .readBeyondLength
  | .reset => .next (resetBlock s)

/-- A sequence of host moves, stopping at the first that has no transition. -/
def hostMoves : List HostMove → State → Host.Outcome State Fault Refusal
  | [], s => .next s
  | m :: ms, s =>
    match hostMove m s with
    | .next t => hostMoves ms t
    | .fault f => .fault f
    | .refused r => .refused r

/-- The writes of the elements of a buffer from index `i` on. -/
def elementWrites {w : Nat} (write : Nat → BitVec w → HostMove) : Nat → List (BitVec w) → List HostMove
  | _, [] => []
  | i, v :: vs => write i v :: elementWrites write (i + 1) vs

/-- How the host loads a text (R231): the elements of `TIN`, then `TIN_LEN`. -/
def loadText (t : Text) : List HostMove :=
  elementWrites .writeTin 0 t ++ [.writeTinLen t.length]

/-- How the host loads octets (R231): the elements of `BIN`, then `BIN_LEN`. -/
def loadOctets (b : List Octet) : List HostMove :=
  elementWrites .writeBin 0 b ++ [.writeBinLen b.length]

/-- The next action of the host and the state without it: the word of a command is an input of the step
and is not kept (R20). -/
def nextAction (s : State) : Option (HostAction × State) :=
  match s.pending with
  | [] => none
  | a :: rest => some (a, { s with pending := rest })

/-- Put a command word where the next step takes its action from. -/
def offerCommand (cw : CommandWord) (s : State) : State :=
  { s with pending := .command cw :: s.pending }

end Sys2Proof.Machine
end

