-- ==== Sys2Proof/Machine/Step.lean ====
section
/-! DEFINITION. One step of the block with its host (rules R9, R56): the next action of the host, taken in
the order the host issues them. A command is one atomic step. While the host does nothing, nothing happens
(log entry 1). -/

namespace Sys2Proof.Machine

/-- One step. -/
def step (s : State) : Host.Outcome State Fault Refusal :=
  match nextAction s with
  | none => .next s
  | some (.command cw, t) => issue cw t
  | some (.move m, t) => hostMove m t

/-- `s` with the command word of the low `nbits` bits of `w` as the host's next action: the very next step
runs it. -/
def State.withFetchWord (s : State) (nbits w : Nat) : State := offerCommand (tableWord nbits w) s

end Sys2Proof.Machine
end

