-- ==== Sys2Proof/Machine/Send.lean ====
section
/-! DEFINITION. The pseudo-command `CODEC.SEND limit` (rules R78, R189): the caller's protocol, expanded.
The host chooses from `STATUS` and `RESULT`; the block has no conditional command. -/

namespace Sys2Proof.Machine

/-- What the host issues after the SSPLIT of `CODEC.SEND limit`, given the state that left (R78): nothing
after an error, ESPLIT when `RESULT = 0x01`, ENC when `RESULT = 0x00`. -/
def sendFollowUp (c : Codec) (limit : Nat) (t : State) : Option Instr :=
  if statusErr t.status = true then none
  else if t.result = 0x01#8 then some (Instr.of c .esplit limit)
  else if t.result = 0x00#8 then some (Instr.of c .enc 0)
  else none

/-- `CODEC.SEND limit` on the operand that is loaded (R78). -/
def send (c : Codec) (limit : Nat) (s : State) : Host.Outcome State Fault Refusal :=
  match exec (Instr.of c .ssplit limit) s with
  | .next t =>
    match sendFollowUp c limit t with
    | none => .next t
    | some i => exec i t
  | .fault f => .fault f
  | .refused r => .refused r

end Sys2Proof.Machine
end

