-- ==== Sys2Proof/Machine/System.lean ====
section
/-! DEFINITION. Several CODEC instances (rules R10, R213): each has its own buffers, `STATUS` and `RESULT`,
their only common content is the constant tables, and a step of one reads and writes nothing of another. An
instance has no identifier; its place in the list is the observer's. Which one moves is an input. The MODEL
also gives every instance the same `T_MAX` and `B_MAX` (DESIGN CHOICE, log entry 16) and the same free values
at the same epoch (log entry 15); the spec says neither. -/

namespace Sys2Proof.Machine

/-- Instance `k` of a system makes one step. An index past the end makes none. -/
def systemStep (sys : List State) (k : Nat) : Host.Outcome (List State) Fault Refusal :=
  match sys[k]? with
  | none => .next sys
  | some s =>
    match step s with
    | .next t => .next (sys.set k t)
    | .fault f => .fault f
    | .refused r => .refused r

end Sys2Proof.Machine
end

