-- ==== Sys2Proof/Safety.lean ====
section
/-! DEFINITION. The terms claims use: the state a command leaves, the repertoires of the codecs, the legal
values of the registers, and the invariant of the block. -/

namespace Sys2Proof.Machine

/-- The state a command leaves: exactly these outputs (R24 to R27), and every other piece of state, the
input buffers and their length registers among it, as it was. -/
def commandEnd (segs : List (List Octet)) (text : Text) (result status : BitVec 8) (s : State) : State :=
  { s with bout := segs, segCnt := segs.length, segLen := segs.map List.length,
           tout := text, tLen := text.length, result := result, status := status }

/-- Opcode byte `b` selects the command `mk` with the word's LIMIT, for every LIMIT width (R70, R73). -/
def opcodeSelects (b : BitVec 8) (mk : Nat → Instr) : Prop :=
  ∀ (lw : Nat) (cw : BitVec (lw + 8)), opcodeField cw = b → decodeAt lw cw = .ok (mk (limitField cw))

/-- A Unicode scalar value (R12). -/
abbrev scalarValue (cp : CodePoint) : Prop :=
  cp.toNat ≤ 0xD7FF ∨ (0xE000 ≤ cp.toNat ∧ cp.toNat ≤ 0x10FFFF)

/-- The character is in the Basic table (R91). -/
def inBasic (cp : CodePoint) : Prop := ∃ c, basicDec c = some cp

/-- The character is in the Extension table (R92). -/
def inExtension (cp : CodePoint) : Prop := ∃ c, extDec c = some cp

/-- The values `STATUS` can hold (R27). -/
def legalStatus : List (BitVec 8) := [0x00#8, 0x80#8, 0xC1#8, 0xC2#8, 0xC3#8, 0xC4#8]

/-- The values `RESULT` can hold (R26, R188). -/
def legalResult : List (BitVec 8) := [0x00#8, 0x01#8, 0x08#8]

/-- The invariant of one CODEC instance. It holds at reset and every step keeps it. -/
structure Inv (s : State) : Prop where
  /-- The stored elements of `TIN` are in canonical form. -/
  tinWf : Memory.wf s.tin
  /-- The stored octets of `BIN` are in canonical form. -/
  binWf : Memory.wf s.bin
  /-- No element of `TIN` lies past `T_MAX` (R62). -/
  tinCapacity : ∀ p ∈ s.tin, p.1 < Config.tMax
  /-- No octet of `BIN` lies past `B_MAX` (R62). -/
  binCapacity : ∀ p ∈ s.bin, p.1 < Config.bMax
  /-- `0 <= TIN_LEN <= T_MAX` (R22). -/
  tinLenCapacity : s.tinLen ≤ Config.tMax
  /-- `0 <= BIN_LEN <= B_MAX` (R23). -/
  binLenCapacity : s.binLen ≤ Config.bMax
  /-- `SEGCNT` counts the segments of `BOUT` (R24). -/
  segCntAgrees : s.segCnt = s.bout.length
  /-- `SEGLEN[k]` is the length of segment `k` (R24). -/
  segLenAgrees : s.segLen = s.bout.map List.length
  /-- `TLEN` is the length of `TOUT` (R25). -/
  tLenAgrees : s.tLen = s.tout.length
  /-- `STATUS` holds one of its six values (R27). -/
  statusLegal : s.status ∈ legalStatus
  /-- `RESULT` holds a truth value or a coding identifier (R26, R188). -/
  resultLegal : s.result ∈ legalResult
  /-- After reset and after an error the outputs are empty (R34, R206). -/
  emptyUnlessOk : s.status ≠ 0x80#8 → s.result = 0x00#8 ∧ s.bout = [] ∧ s.tout = []
  /-- No command writes both `BOUT` and `TOUT` (R24, R25). -/
  oneOutput : s.bout = [] ∨ s.tout = []
  /-- `BOUT` is within its capacity in segments (R24). -/
  segmentCapacity : s.segCnt ≤ max 1 Config.tMax
  /-- `BOUT` is within its capacity in octets (R24). -/
  octetCapacity : (s.bout.map List.length).sum ≤ 4 * Config.tMax
  /-- `TOUT` is within its capacity (R25). -/
  textCapacity : s.tLen ≤ 2 * Config.bMax
  /-- Every element of `TOUT` is a Unicode scalar value (R25). -/
  textScalar : ∀ cp ∈ s.tout, scalarValue cp
  /-- The words the host will write have the one `LW` of the instance's command port, `LW >= 1` (R4, R70). -/
  onePortWidth : ∃ lw, 1 ≤ lw ∧ ∀ cw, HostAction.command cw ∈ s.pending → cw.limitWidth = lw

end Sys2Proof.Machine
end

