-- ==== Sys2Proof/Certificates/Slice0/Obligations.lean ====
section
/-! DEFINITION. The statements for the provers. A command's next state is written `commandEnd segs text
result status s`: exactly those outputs, and everything else of `s` (the input buffers, their length
registers, the host's coming actions) unchanged, so each such equation is its own frame. -/

open Sys2Proof Sys2Proof.Machine

/-! ### Encoding -/

/-- R70, R73: for every LIMIT width, the word of a well-formed command decodes to that command; and a word
that decodes is the word of the command it decodes to, which is well formed: no bit is dropped. -/
def Obligations.DecodeAndEncodeAgree : Prop :=
  (∀ (lw : Nat) (i : Instr), i.wfAt lw = true → decodeAt lw (encodeAt lw i) = .ok i) ∧
  (∀ (lw : Nat) (cw : BitVec (lw + 8)) (i : Instr),
    decodeAt lw cw = .ok i → i.wfAt lw = true ∧ encodeAt lw i = cw)

/-- R73: a word is the command of a row exactly when `w & mask = match`. -/
def Obligations.DecoderFollowsMaskAndMatch : Prop :=
  ∀ (lw : Nat) (cw : BitVec (lw + 8)), ∀ r ∈ opcodeTable,
    r.matches cw = true ↔ decodeAt lw cw = .ok (Instr.of r.codec r.op (limitField cw))

/-- R74, R204: the 241 opcode bytes outside rule R73 are those with `CODEC` in 3 .. 15 or `OP` in 5 .. 15,
and a command word with one of them raises IllegalCommand whatever its LIMIT and whatever the state holds. -/
def Obligations.ReservedOpcodeRaisesIllegalCommand : Prop :=
  (∀ b : BitVec 8, (∀ r ∈ opcodeTable, b ≠ r.pattern) ↔
    (3 ≤ (b.extractLsb' 4 4).toNat ∨ 5 ≤ (b.extractLsb' 0 4).toNat)) ∧
  ((List.range 256).filter (fun n => opcodeTable.all (fun r => decide (BitVec.ofNat 8 n ≠ r.pattern)))).length
    = 241 ∧
  ∀ (s : State) (cw : CommandWord) (rest : List HostAction), s.pending = .command cw :: rest →
    (∀ r ∈ opcodeTable, opcodeField cw.bits ≠ r.pattern) →
    step s = .next (commandEnd [] [] 0x00#8 0xC4#8 { s with pending := rest })

/-- V-X1 and rule R70's example: command words written out from the spec decode to the commands it names. -/
def Obligations.CommandWordsOfTheSpecDecode : Prop :=
  decodeAt 16 0x008613#24 = .ok (.g7pEsplit 134) ∧ decodeAt 16 0x006B23#24 = .ok (.ucs2Esplit 107) ∧
  decodeAt 16 0x000000#24 = .ok (.g7uEnc 0) ∧ decodeAt 16 0xFFFF01#24 = .ok (.g7uDec 0xFFFF) ∧
  decodeAt 16 0x000502#24 = .ok (.g7uSsplit 5) ∧ decodeAt 16 0x000014#24 = .ok (.g7pDcode 0) ∧
  decodeAt 16 0x123480#24 = .error (.codec 8#4) ∧ decodeAt 16 0x000015#24 = .error (.op 5#4)

/-! ### The step -/

/-- R9, R20, R35: a step takes the host's next action. A command word that decodes to `i` is run as `i` on
the state without that word; any other move of the host is made. With no action waiting the state stays as
it is, which is the MODEL's choice (log entry 1). -/
def Obligations.StepTakesTheHostsNextAction : Prop :=
  (∀ (s : State) (cw : CommandWord) (rest : List HostAction) (i : Instr),
    s.pending = .command cw :: rest → decode cw = .ok i → step s = exec i { s with pending := rest }) ∧
  (∀ (s : State) (m : HostMove) (rest : List HostAction),
    s.pending = .move m :: rest → step s = hostMove m { s with pending := rest }) ∧
  (∀ s : State, s.pending = [] → step s = .next s)

/-! ### G7U -/

/-- R110: G7U.ENC. -/
def Obligations.G7uEncWritesOneUnpackedSegment : Prop :=
  opcodeSelects 0x00#8 .g7uEnc ∧
  ∀ (limit : Nat) (s : State),
    (∀ S, encodeSeptets (textOperand s) = .ok S →
      exec (.g7uEnc limit) s = .next (commandEnd [S.map (fun c => (0#1 ++ c : BitVec 8))] [] 0x00#8 0x80#8 s)) ∧
    (∀ e, encodeSeptets (textOperand s) = .error e →
      exec (.g7uEnc limit) s = .next (commandEnd [] [] 0x00#8 0xC1#8 s))

/-- R111: G7U.DEC. `TLEN` is `BIN_LEN` minus the number of escape octets. -/
def Obligations.G7uDecResolvesEscapes : Prop :=
  opcodeSelects 0x01#8 .g7uDec ∧
  ∀ (limit : Nat) (s : State),
    (∀ T, decodeSeptets (byteOperand s) = .ok T →
      exec (.g7uDec limit) s = .next (commandEnd [] T 0x00#8 0x80#8 s) ∧
      T.length + (byteOperand s).count 0x1B#8 = s.binLen) ∧
    (∀ e, decodeSeptets (byteOperand s) = .error e →
      exec (.g7uDec limit) s = .next (commandEnd [] [] 0x00#8 0xC2#8 s))

/-- R112: G7U.SSPLIT, with its law: the count it compares is the octet length G7U.ENC gives. -/
def Obligations.G7uSsplitComparesSeptetCount : Prop :=
  opcodeSelects 0x02#8 .g7uSsplit ∧
  ∀ (limit : Nat) (s : State),
    (∀ n, septetCount (textOperand s) = .ok n →
      exec (.g7uSsplit limit) s =
        .next (commandEnd [] [] (if n > limit then 0x01#8 else 0x00#8) 0x80#8 s) ∧
      ∃ B, exec (.g7uEnc limit) s = .next (commandEnd [B] [] 0x00#8 0x80#8 s) ∧ B.length = n) ∧
    (∀ e, septetCount (textOperand s) = .error e →
      exec (.g7uSsplit limit) s = .next (commandEnd [] [] 0x00#8 0xC1#8 s))

/-- R113: G7U.ESPLIT. -/
def Obligations.G7uEsplitSegmentsUnpacked : Prop :=
  opcodeSelects 0x03#8 .g7uEsplit ∧
  ∀ (limit : Nat) (s : State),
    (∀ e, units7 (textOperand s) = .error e →
      exec (.g7uEsplit limit) s = .next (commandEnd [] [] 0x00#8 0xC1#8 s)) ∧
    (∀ U, units7 (textOperand s) = .ok U → (∃ u ∈ U, limit < u.length) →
      exec (.g7uEsplit limit) s = .next (commandEnd [] [] 0x00#8 0xC3#8 s)) ∧
    (∀ U, units7 (textOperand s) = .ok U → (∀ u ∈ U, u.length ≤ limit) →
      ∃ segs, segment List.length (fun n => decide (n ≤ limit)) U = .ok segs ∧
        exec (.g7uEsplit limit) s =
          .next (commandEnd (segs.map (fun g => g.flatten.map (fun c => (0#1 ++ c : BitVec 8)))) []
            0x00#8 0x80#8 s))

/-! ### G7P -/

/-- R136: G7P.ENC. -/
def Obligations.G7pEncPacksWithoutFiller : Prop :=
  opcodeSelects 0x10#8 .g7pEnc ∧
  ∀ (limit : Nat) (s : State),
    (∀ S, encodeSeptets (textOperand s) = .ok S →
      exec (.g7pEnc limit) s = .next (commandEnd [pack S] [] 0x00#8 0x80#8 s)) ∧
    (∀ e, encodeSeptets (textOperand s) = .error e →
      exec (.g7pEnc limit) s = .next (commandEnd [] [] 0x00#8 0xC1#8 s))

/-- R137: G7P.DEC. The unpacked septets are octets below 128. -/
def Obligations.G7pDecUnpacksThenDecodes : Prop :=
  opcodeSelects 0x11#8 .g7pDec ∧
  ∀ (limit : Nat) (s : State),
    (∀ T, decodeSeptets ((unpack (byteOperand s)).map (fun c => (0#1 ++ c : BitVec 8))) = .ok T →
      exec (.g7pDec limit) s = .next (commandEnd [] T 0x00#8 0x80#8 s)) ∧
    (∀ e, decodeSeptets ((unpack (byteOperand s)).map (fun c => (0#1 ++ c : BitVec 8))) = .error e →
      exec (.g7pDec limit) s = .next (commandEnd [] [] 0x00#8 0xC2#8 s))

/-- R138: G7P.SSPLIT, with the thresholds that the formula gives (C1), and its law: they are those of the
octet length G7P.ENC gives. -/
def Obligations.G7pSsplitComparesPackedLength : Prop :=
  opcodeSelects 0x12#8 .g7pSsplit ∧
  ∀ (limit : Nat) (s : State),
    (∀ n, septetCount (textOperand s) = .ok n →
      exec (.g7pSsplit limit) s =
        .next (commandEnd [] [] (if 7 * n > 8 * limit then 0x01#8 else 0x00#8) 0x80#8 s) ∧
      ∃ B, exec (.g7pEnc limit) s = .next (commandEnd [B] [] 0x00#8 0x80#8 s) ∧
        (B.length > limit ↔ 7 * n > 8 * limit)) ∧
    (∀ e, septetCount (textOperand s) = .error e →
      exec (.g7pSsplit limit) s = .next (commandEnd [] [] 0x00#8 0xC1#8 s))

/-- R139: G7P.ESPLIT. A unit fits alone exactly when its packed length is within the limit. -/
def Obligations.G7pEsplitSegmentsPackedAndFilled : Prop :=
  opcodeSelects 0x13#8 .g7pEsplit ∧
  ∀ (limit : Nat) (s : State),
    (∀ e, units7 (textOperand s) = .error e →
      exec (.g7pEsplit limit) s = .next (commandEnd [] [] 0x00#8 0xC1#8 s)) ∧
    (∀ U, units7 (textOperand s) = .ok U → (∃ u ∈ U, limit < packedLen u.length) →
      exec (.g7pEsplit limit) s = .next (commandEnd [] [] 0x00#8 0xC3#8 s)) ∧
    (∀ U, units7 (textOperand s) = .ok U → (∀ u ∈ U, packedLen u.length ≤ limit) →
      ∃ segs, segment List.length (fun n => decide (packedLen n ≤ limit)) U = .ok segs ∧
        exec (.g7pEsplit limit) s =
          .next (commandEnd
            (segs.map (fun g => pack (if g.flatten.length % 8 = 7 then g.flatten ++ [0x0D#7] else g.flatten)))
            [] 0x00#8 0x80#8 s))

/-! ### UCS2 -/

/-- R164: UCS2.ENC. -/
def Obligations.Ucs2EncWritesBigEndianUnits : Prop :=
  opcodeSelects 0x20#8 .ucs2Enc ∧
  ∀ (limit : Nat) (s : State),
    (∀ B, encodeU (textOperand s) = .ok B →
      exec (.ucs2Enc limit) s = .next (commandEnd [B] [] 0x00#8 0x80#8 s) ∧ B.length % 2 = 0) ∧
    (∀ e, encodeU (textOperand s) = .error e →
      exec (.ucs2Enc limit) s = .next (commandEnd [] [] 0x00#8 0xC1#8 s))

/-- R165: UCS2.DEC. Every output element is a Unicode scalar value. -/
def Obligations.Ucs2DecReadsBigEndianUnits : Prop :=
  opcodeSelects 0x21#8 .ucs2Dec ∧
  ∀ (limit : Nat) (s : State),
    (∀ T, decodeU (byteOperand s) = .ok T →
      exec (.ucs2Dec limit) s = .next (commandEnd [] T 0x00#8 0x80#8 s) ∧ ∀ cp ∈ T, scalarValue cp) ∧
    (∀ e, decodeU (byteOperand s) = .error e →
      exec (.ucs2Dec limit) s = .next (commandEnd [] [] 0x00#8 0xC2#8 s))

/-- R166: UCS2.SSPLIT; the length it compares is that of what UCS2.ENC gives. -/
def Obligations.Ucs2SsplitComparesByteLength : Prop :=
  opcodeSelects 0x22#8 .ucs2Ssplit ∧
  ∀ (limit : Nat) (s : State),
    (∀ n, byteLen (textOperand s) = .ok n →
      exec (.ucs2Ssplit limit) s =
        .next (commandEnd [] [] (if n > limit then 0x01#8 else 0x00#8) 0x80#8 s) ∧
      ∃ B, exec (.ucs2Enc limit) s = .next (commandEnd [B] [] 0x00#8 0x80#8 s) ∧ B.length = n) ∧
    (∀ e, byteLen (textOperand s) = .error e →
      exec (.ucs2Ssplit limit) s = .next (commandEnd [] [] 0x00#8 0xC1#8 s))

/-- R167: UCS2.ESPLIT. -/
def Obligations.Ucs2EsplitSegmentsWholeUnits : Prop :=
  opcodeSelects 0x23#8 .ucs2Esplit ∧
  ∀ (limit : Nat) (s : State),
    (∀ e, unitsU (textOperand s) = .error e →
      exec (.ucs2Esplit limit) s = .next (commandEnd [] [] 0x00#8 0xC1#8 s)) ∧
    (∀ U, unitsU (textOperand s) = .ok U → (∃ u ∈ U, limit < u.length) →
      exec (.ucs2Esplit limit) s = .next (commandEnd [] [] 0x00#8 0xC3#8 s)) ∧
    (∀ U, unitsU (textOperand s) = .ok U → (∀ u ∈ U, u.length ≤ limit) →
      ∃ segs, segment List.length (fun n => decide (n ≤ limit)) U = .ok segs ∧
        exec (.ucs2Esplit limit) s = .next (commandEnd (segs.map List.flatten) [] 0x00#8 0x80#8 s))

/-- R114, R140, R168, R188: the three DCODE commands. -/
def Obligations.DcodeReturnsTheCodingIdentifier : Prop :=
  opcodeSelects 0x04#8 .g7uDcode ∧ opcodeSelects 0x14#8 .g7pDcode ∧ opcodeSelects 0x24#8 .ucs2Dcode ∧
  ∀ (limit : Nat) (s : State),
    exec (.g7uDcode limit) s = .next (commandEnd [] [] 0x00#8 0x80#8 s) ∧
    exec (.g7pDcode limit) s = .next (commandEnd [] [] 0x00#8 0x80#8 s) ∧
    exec (.ucs2Dcode limit) s = .next (commandEnd [] [] 0x08#8 0x80#8 s)

/-! ### Septet lookup -/

/-- R94: the properties (a) to (g) of the tables. -/
def Obligations.AlphabetTablesHaveTheirProperties : Prop :=
  (∀ c : Septet, (basicDec c).isSome = true ↔ c ≠ 0x1B#7) ∧
  (∀ c d : Septet, basicDec c = basicDec d → c ≠ 0x1B#7 → c = d) ∧
  (∀ (c d : Septet) (cp : CodePoint), extDec c = some cp → extDec d = some cp → c = d) ∧
  (∀ cp : CodePoint, ¬ (inBasic cp ∧ inExtension cp)) ∧
  (basicDec 0x1B#7 = none ∧ extDec 0x1B#7 = none) ∧
  basicDec 0x0D#7 = some 0x00000D#21 ∧
  (∀ cp : CodePoint, inBasic cp ∨ inExtension cp → scalarValue cp) ∧
  (basicEnc 0x61#21 = some 0x61#7 ∧ basicEnc 0x67#21 = some 0x67#7 ∧ basicEnc 0x6A#21 = some 0x6A#7 ∧
   basicEnc 0x77#21 = some 0x77#7 ∧ basicEnc 0x6B#21 = some 0x6B#7 ∧ basicEnc 0x6C#21 = some 0x6C#7 ∧
   basicEnc 0x50#21 = some 0x50#7)

/-- R93: a Basic character is its septet, an Extension character is `ESC` and its code, and any other
element raises UnencodableCharacter. -/
def Obligations.UnitLookupFollowsTheTables : Prop :=
  (∀ (cp : CodePoint) (c : Septet), unit7 cp = .ok [c] ↔ basicDec c = some cp) ∧
  (∀ (cp : CodePoint) (c : Septet), unit7 cp = .ok [0x1B#7, c] ↔ extDec c = some cp) ∧
  (∀ (cp : CodePoint) (e : ErrorKind), unit7 cp = .error e ↔
    e = .unencodableCharacter ∧ ¬ inBasic cp ∧ ¬ inExtension cp)

/-- R96: the units in index order, the error of the first unencodable character, and the count: Basic
characters plus twice the Extension characters. -/
def Obligations.SeptetsOfATextAreItsUnitsInOrder : Prop :=
  (∀ (t : Text) (U : List (List Septet)), units7 t = .ok U → encodeSeptets t = .ok U.flatten ∧ U.length = t.length ∧
    ∀ (k : Nat) (cp : CodePoint), t[k]? = some cp → ∃ u, U[k]? = some u ∧ unit7 cp = .ok u) ∧
  (∀ (p q : Text) (cp : CodePoint) (e : ErrorKind), (∀ x ∈ p, ∃ u, unit7 x = .ok u) → unit7 cp = .error e →
    units7 (p ++ cp :: q) = .error e ∧ encodeSeptets (p ++ cp :: q) = .error e) ∧
  (∀ (t : Text) (n : Nat), septetCount t = .ok n →
    n = t.countP (fun cp => (basicEnc cp).isSome) + 2 * t.countP (fun cp => (extEnc cp).isSome))

/-- The law of rule R98, both ways at once: octets decode to a text exactly when that text's septets are
those octets. -/
def Obligations.SeptetDecodeInvertsEncode : Prop :=
  ∀ (B : List Octet) (T : Text),
    decodeSeptets B = .ok T ↔ ∃ S, encodeSeptets T = .ok S ∧ B = S.map (fun c => (0#1 ++ c : BitVec 8))

/-- R202 for the septet codecs: DEC of septets raises MalformedInput exactly when the octets are no
encoding of any text, in particular on an orphan escape and on an octet above `0x7F`. -/
def Obligations.MalformedSeptetsAreRejected : Prop :=
  (∀ B : List Octet, decodeSeptets B = .error .malformedInput ↔
    ∀ T S, encodeSeptets T = .ok S → B ≠ S.map (fun c => (0#1 ++ c : BitVec 8))) ∧
  (∀ (B : List Octet) (e : ErrorKind), decodeSeptets B = .error e → e = .malformedInput) ∧
  (∀ T S, encodeSeptets T = .ok S →
    decodeSeptets (S.map (fun c => (0#1 ++ c : BitVec 8)) ++ [0x1B#8]) = .error .malformedInput) ∧
  (∀ (B : List Octet), (∃ b ∈ B, 0x7F < b.toNat) → decodeSeptets B = .error .malformedInput) ∧
  (∀ (T : Text) (S : List Septet) (c : Septet) (q : List Octet), encodeSeptets T = .ok S → extDec c = none →
    decodeSeptets (S.map (fun c => (0#1 ++ c : BitVec 8)) ++ 0x1B#8 :: (0#1 ++ c : BitVec 8) :: q)
      = .error .malformedInput)

/-! ### Packer and unpacker -/

/-- R130 and R131, R132 and R133: the shift and mask forms of the packer and the unpacker are the same
functions as their bit stream forms. -/
def Obligations.ShiftFormsAgreeWithTheBitStream : Prop :=
  (∀ S : List Septet, packShift S = pack S) ∧ (∀ B : List Octet, unpackShift B = unpack B)

/-- R130: `Pack(S)` has `PackedLen` octets, stream bit `7 i + b` is bit `b` of septet `i`, and every bit
above the last septet is 0. -/
def Obligations.PackPlacesEveryBit : Prop :=
  ∀ S : List Septet, (pack S).length = ceilDiv (7 * S.length) 8 ∧
    (∀ (i b : Nat) (c : Septet), S[i]? = some c → b < 7 →
      ∃ o, (pack S)[(7 * i + b) / 8]? = some o ∧ o.getLsbD ((7 * i + b) % 8) = c.getLsbD b) ∧
    (∀ (k : Nat) (o : Octet), 7 * S.length ≤ k → (pack S)[k / 8]? = some o → o.getLsbD (k % 8) = false)

/-- R132: `Unpack(B)` has every whole septet of the octets, bit `b` of septet `i` being stream bit
`7 i + b`; the `(8 N) mod 7` left-over high bits change nothing. -/
def Obligations.UnpackReadsEveryWholeSeptet : Prop :=
  (∀ B : List Octet, (unpack B).length = 8 * B.length / 7 ∧
    ∀ (i b : Nat) (c : Septet), (unpack B)[i]? = some c → b < 7 →
      ∃ o, B[(7 * i + b) / 8]? = some o ∧ c.getLsbD b = o.getLsbD ((7 * i + b) % 8)) ∧
  (∀ (B : List Octet) (x y : Octet),
    (∀ b, b < 8 - 8 * (B.length + 1) % 7 → x.getLsbD b = y.getLsbD b) →
    unpack (B ++ [x]) = unpack (B ++ [y]))

/-- R134 and R135: the sizes, and that the filler never changes an octet count and fills the last octet. -/
def Obligations.PackedSizesAndFiller : Prop :=
  (∀ n, packedLen n = (7 * n + 7) / 8 ∧ packedLen n = n - n / 8 ∧ 8 * packedLen n - 7 * n = n % 8 ∧
    packedLen n - 7 * (n / 8) = n % 8) ∧
  (∀ n L, (packedLen n ≤ L ↔ 7 * n ≤ 8 * L) ∧ (packedLen n ≤ L ↔ n ≤ maxSeptets L)) ∧
  (∀ n m, n ≤ m → packedLen n ≤ packedLen m) ∧
  (∀ n, packedLen (n + fill n) = packedLen n ∧ (fill n = 1 ↔ n % 8 = 7) ∧
    (fill n = 1 → 7 * (n + fill n) = 8 * packedLen n))

/-- The first law of rule R142 (a): unpacking what was packed gives the septets back, and one zero septet
more when their count is 7 modulo 8. -/
def Obligations.UnpackOfPackReturnsTheSeptets : Prop :=
  ∀ S : List Septet, unpack (pack S) = if S.length % 8 = 7 then S ++ [0x00#7] else S

/-- The second law of rule R142 (a): packing what was unpacked gives the octets back with the top
`BIN_LEN mod 7` bits of the last octet cleared. -/
def Obligations.PackOfUnpackClearsTheSpareBits : Prop :=
  pack (unpack []) = [] ∧
  ∀ (B : List Octet) (x : Octet),
    pack (unpack (B ++ [x])) = B ++ [BitVec.ofNat 8 (x.toNat % 2 ^ (8 - (B.length + 1) % 7))]

/-! ### UCS2 lookup -/

/-- R160, R161, R162: the octets of one character. -/
def Obligations.Ucs2UnitOfEachCharacter : Prop :=
  ∀ cp : CodePoint,
    (cp.toNat ≤ 0xD7FF ∨ (0xE000 ≤ cp.toNat ∧ cp.toNat ≤ 0xFFFF) →
      unitU cp = .ok [cp.extractLsb' 8 8, cp.extractLsb' 0 8]) ∧
    (0x10000 ≤ cp.toNat → cp.toNat ≤ 0x10FFFF →
      let v : BitVec 21 := cp - 0x10000#21
      let hi : BitVec 16 := 0xD800#16 + (v.extractLsb' 10 10).setWidth 16
      let lo : BitVec 16 := 0xDC00#16 + (v.extractLsb' 0 10).setWidth 16
      0xD800 ≤ hi.toNat ∧ hi.toNat ≤ 0xDBFF ∧ 0xDC00 ≤ lo.toNat ∧ lo.toNat ≤ 0xDFFF ∧
      unitU cp = .ok [hi.extractLsb' 8 8, hi.extractLsb' 0 8, lo.extractLsb' 8 8, lo.extractLsb' 0 8]) ∧
    (¬ scalarValue cp → unitU cp = .error .unencodableCharacter)

/-- The laws (a) and (b) of rule R169, both at once: octets decode to a text exactly when that text encodes
to those octets. -/
def Obligations.Ucs2DecodeInvertsEncode : Prop :=
  ∀ (B : List Octet) (T : Text), decodeU B = .ok T ↔ encodeU T = .ok B

/-! ### Segmentation -/

/-- The guarantees V1 to V5 and V7 of rule R182: the segments are sequences of whole units, in order and
complete; each fits, none is empty, none could have taken the next unit, and there are at most as many
segments as units. -/
def Obligations.SegmentKeepsWholeUnitsWithinTheLimit : Prop :=
  ∀ (υ : Type) (cost : υ → Nat) (fits : Nat → Bool) (U : List υ) (segs : List (List υ)),
    segment cost fits U = .ok segs →
      segs.flatten = U ∧
      (∀ g ∈ segs, g ≠ [] ∧ fits ((g.map cost).sum) = true) ∧
      (∀ (k : Nat) (g : List υ) (u : υ) (h : List υ), segs[k]? = some g → segs[k + 1]? = some (u :: h) →
        fits ((g.map cost).sum + cost u) = false) ∧
      segs.length ≤ U.length

/-- R183: when each ESPLIT raises SegmentLimitTooSmall, and that the whole command fails then. -/
def Obligations.SegmentLimitTooSmallConditions : Prop :=
  ∀ (limit : Nat) (s : State),
    (exec (.g7uEsplit limit) s = .next (commandEnd [] [] 0x00#8 0xC3#8 s) ↔
      (∃ U, units7 (textOperand s) = .ok U) ∧
        ((limit = 0 ∧ textOperand s ≠ []) ∨ (limit = 1 ∧ ∃ cp ∈ textOperand s, inExtension cp))) ∧
    (exec (.g7pEsplit limit) s = .next (commandEnd [] [] 0x00#8 0xC3#8 s) ↔
      (∃ U, units7 (textOperand s) = .ok U) ∧
        ((limit = 0 ∧ textOperand s ≠ []) ∨ (limit = 1 ∧ ∃ cp ∈ textOperand s, inExtension cp))) ∧
    (exec (.ucs2Esplit limit) s = .next (commandEnd [] [] 0x00#8 0xC3#8 s) ↔
      (∃ U, unitsU (textOperand s) = .ok U) ∧
        ((limit ≤ 1 ∧ textOperand s ≠ []) ∨ (limit ≤ 3 ∧ ∃ cp ∈ textOperand s, 0x10000 ≤ cp.toNat)))

/-- R207 (4): ESPLIT raises UnencodableCharacter exactly when ENC on the same text does, and
SegmentLimitTooSmall only on texts that ENC accepts. -/
def Obligations.UnencodableComesBeforeLimitTooSmall : Prop :=
  ∀ (c : Codec) (limit limit' : Nat) (s : State), ∃ t t',
    exec (Instr.of c .esplit limit) s = .next t ∧ exec (Instr.of c .enc limit') s = .next t' ∧
    (t.status = 0xC1#8 ↔ t'.status = 0xC1#8) ∧
    (t.status = 0xC3#8 → t'.status = 0x80#8) ∧
    (t.status = 0x80#8 → t'.status = 0x80#8)

/-- The law of rules R112, R138 and R166: SSPLIT and ENC raise on the same texts, and otherwise `RESULT` is
1 exactly when the octets ENC produces exceed the limit, else 0. -/
def Obligations.SsplitTellsWhetherEncExceedsTheLimit : Prop :=
  ∀ (c : Codec) (limit limit' : Nat) (s : State), ∃ t t',
    exec (Instr.of c .ssplit limit) s = .next t ∧ exec (Instr.of c .enc limit') s = .next t' ∧
    t.status = t'.status ∧
    (t.status = 0x80#8 →
      t.result = if limit < (t'.bout.map List.length).sum then 0x01#8 else 0x00#8)

/-- The law of rule R186: when SSPLIT gives false ESPLIT raises nothing; SSPLIT gives false exactly when
ESPLIT gives at most one segment; that segment is then ENC's output, but that a G7P segment of 7 modulo 8
septets has the filler where ENC leaves zero bits in its last octet. -/
def Obligations.SsplitAndEsplitAgree : Prop :=
  ∀ (c : Codec) (limit limit' : Nat) (s t t' t'' : State),
    exec (Instr.of c .ssplit limit) s = .next t → t.status = 0x80#8 →
    exec (Instr.of c .esplit limit) s = .next t' → exec (Instr.of c .enc limit') s = .next t'' →
    (t.result = 0x00#8 → t'.status = 0x80#8) ∧
    (t'.status = 0x80#8 → (t.result = 0x00#8 ↔ t'.bout.length ≤ 1)) ∧
    (t.result = 0x00#8 → textOperand s ≠ [] →
      ∃ g B, t'.bout = [g] ∧ t''.bout = [B] ∧
        (g = B ∨ (c = .g7p ∧ B.length % 7 = 0 ∧
          ∃ front b, B = front ++ [b] ∧ b.toNat < 2 ∧ g = front ++ [b ||| 0x1A#8])) ∧
        (c = .g7p → ∀ n, septetCount (textOperand s) = .ok n → (g ≠ B ↔ n % 8 = 7)))

/-! ### Round trips and reassembly at the machine -/

/-- The laws of rules R115 (a) and R169 (a): DEC of the output of ENC gives the text, for every text that
G7U.ENC accepts and for every text of Unicode scalar values in UCS2. -/
def Obligations.DecReturnsWhatEncEncoded : Prop :=
  ∀ (limit limit' : Nat) (s : State),
    ((∀ cp ∈ textOperand s, inBasic cp ∨ inExtension cp) →
      ∃ B, exec (.g7uEnc limit) s = .next (commandEnd [B] [] 0x00#8 0x80#8 s) ∧
        ∀ s', byteOperand s' = B →
          exec (.g7uDec limit') s' = .next (commandEnd [] (textOperand s) 0x00#8 0x80#8 s')) ∧
    ((∀ cp ∈ textOperand s, scalarValue cp) →
      ∃ B, exec (.ucs2Enc limit) s = .next (commandEnd [B] [] 0x00#8 0x80#8 s) ∧
        ∀ s', byteOperand s' = B →
          exec (.ucs2Dec limit') s' = .next (commandEnd [] (textOperand s) 0x00#8 0x80#8 s'))

/-- The law of rule R115 (b): the segments of G7U.ESPLIT, decoded one by one, rejoin to the text; their
octets joined are G7U.ENC's; each is within the limit; none ends with `ESC`. -/
def Obligations.G7uSegmentsReassemble : Prop :=
  ∀ (limit limit' : Nat) (s t t' : State),
    exec (.g7uEsplit limit) s = .next t → t.status = 0x80#8 → exec (.g7uEnc limit') s = .next t' →
    t'.bout = [t.bout.flatten] ∧
    (∀ g ∈ t.bout, g.length ≤ limit ∧ g.getLast? ≠ some 0x1B#8) ∧
    ∃ parts : List Text, parts.flatten = textOperand s ∧
      List.Forall₂ (fun part g => ∀ s' l, byteOperand s' = g →
        exec (.g7uDec l) s' = .next (commandEnd [] part 0x00#8 0x80#8 s')) parts t.bout

/-- The law of rule R142 (b): G7P.DEC of the output of G7P.ENC gives the text, and one `U+0040` more when
its septet count is 7 modulo 8 (C3). -/
def Obligations.G7pDecReturnsWhatG7pEncEncoded : Prop :=
  ∀ (limit limit' : Nat) (s s' t : State) (B : List Octet) (n : Nat),
    exec (.g7pEnc limit) s = .next t → septetCount (textOperand s) = .ok n → t.bout = [B] →
    byteOperand s' = B →
    exec (.g7pDec limit') s' =
      .next (commandEnd [] (textOperand s ++ if n % 8 = 7 then [0x000040#21] else []) 0x00#8 0x80#8 s')

/-- The laws of rule R142 (c) and (d), with R141 and R232: the segments of G7P.ESPLIT come from consecutive
substrings of the text; each is within the limit, has the packed length of its substring, and decodes by
itself to that substring, with one `U+000D` more when its septet count is 7 modulo 8. -/
def Obligations.G7pSegmentsReassemble : Prop :=
  ∀ (limit : Nat) (s t : State),
    exec (.g7pEsplit limit) s = .next t → t.status = 0x80#8 →
    ∃ parts : List Text, parts.flatten = textOperand s ∧
      List.Forall₂ (fun part g => g.length ≤ limit ∧
        ∃ n, septetCount part = .ok n ∧ g.length = packedLen n ∧
          ∀ s' l, byteOperand s' = g →
            exec (.g7pDec l) s' =
              .next (commandEnd [] (part ++ if n % 8 = 7 then [0x00000D#21] else []) 0x00#8 0x80#8 s'))
        parts t.bout

/-- The law of rule R169 (c): the segments of UCS2.ESPLIT, decoded one by one, rejoin to the text; their
octets joined are UCS2.ENC's; each has an even length within the limit; none ends in a high surrogate. -/
def Obligations.Ucs2SegmentsReassemble : Prop :=
  ∀ (limit limit' : Nat) (s t t' : State),
    exec (.ucs2Esplit limit) s = .next t → t.status = 0x80#8 → exec (.ucs2Enc limit') s = .next t' →
    t'.bout = [t.bout.flatten] ∧
    (∀ g ∈ t.bout, g.length % 2 = 0 ∧ g.length ≤ limit ∧
      ∀ front hi lo, g = front ++ [hi, lo] → ¬ (0xD8 ≤ hi.toNat ∧ hi.toNat ≤ 0xDB)) ∧
    ∃ parts : List Text, parts.flatten = textOperand s ∧
      List.Forall₂ (fun part g => ∀ s' l, byteOperand s' = g →
        exec (.ucs2Dec l) s' = .next (commandEnd [] part 0x00#8 0x80#8 s')) parts t.bout

/-! ### Every command -/

/-- R22, R23, R35: every command completes, for every state and operand, and writes nothing but the
outputs: the input buffers, their length registers and the host's coming actions stay. -/
def Obligations.EveryCommandWritesOnlyTheOutputs : Prop :=
  ∀ (i : Instr) (s : State), ∃ segs text result status,
    exec i s = .next (commandEnd segs text result status s)

/-- R24, R25, R205: what a command of each operation can end in and which outputs it writes. ENC writes one
segment, ESPLIT segments none of which is empty, every other command no segment; `TOUT` is written only by
DEC and holds Unicode scalar values. -/
def Obligations.OutputsAndErrorsOfEachOperation : Prop :=
  ∀ (i : Instr) (s t : State), exec i s = .next t →
    t.segCnt = t.bout.length ∧ t.segLen = t.bout.map List.length ∧ t.tLen = t.tout.length ∧
    (i.op = .enc → t.status = 0x80#8 → t.segCnt = 1) ∧
    (i.op = .esplit → ∀ g ∈ t.bout, g ≠ []) ∧
    (i.op ≠ .enc → i.op ≠ .esplit → t.segCnt = 0) ∧
    (i.op ≠ .dec → t.tLen = 0) ∧
    (∀ cp ∈ t.tout, scalarValue cp) ∧
    (t.status = 0x80#8 ∨
      (t.status = 0xC1#8 ∧ (i.op = .enc ∨ i.op = .ssplit ∨ i.op = .esplit)) ∨
      (t.status = 0xC2#8 ∧ i.op = .dec) ∨
      (t.status = 0xC3#8 ∧ i.op = .esplit))

/-- The law of rule R33: what a command leaves in the outputs depends on the command and its operands alone. -/
def Obligations.OutputsDependOnOperandsAlone : Prop :=
  ∀ (i : Instr) (s s' : State), textOperand s = textOperand s' → byteOperand s = byteOperand s' →
    ∃ segs text result status,
      exec i s = .next (commandEnd segs text result status s) ∧
      exec i s' = .next (commandEnd segs text result status s')

/-- R206: a command that ends in an error leaves `RESULT` 0, `BOUT` and `TOUT` empty, `STATUS` with DONE,
ERR and the error's code, and every other piece of state as it was; so does a reserved command word. -/
def Obligations.ErrorLeavesNoPartialOutput : Prop :=
  (∀ (i : Instr) (s t : State), exec i s = .next t → statusErr t.status = true →
    ∃ e : ErrorKind, t = commandEnd [] [] 0x00#8 (0xC0#8 ||| e.code.setWidth 8) s) ∧
  (∀ (cw : CommandWord) (r : Reserved) (s : State), decode cw = .error r →
    issue cw s = .next (commandEnd [] [] 0x00#8 (0xC0#8 ||| ErrorKind.illegalCommand.code.setWidth 8) s))

/-- R26: `RESULT` is 0 or 1 after SSPLIT, the coding identifier after DCODE, and 0 after every other command
and every error. -/
def Obligations.ResultRegisterIsWrittenByEveryCommand : Prop :=
  (∀ (i : Instr) (s t : State), exec i s = .next t →
    (i.op = .ssplit → t.result = 0x00#8 ∨ t.result = 0x01#8) ∧
    (i.op = .dcode → t.result = if i.codec = .ucs2 then 0x08#8 else 0x00#8) ∧
    (i.op ≠ .ssplit → i.op ≠ .dcode → t.result = 0x00#8) ∧
    (statusErr t.status = true → t.result = 0x00#8)) ∧
  (∀ (cw : CommandWord) (s t : State), issue cw s = .next t → statusErr t.status = true → t.result = 0x00#8)

/-- R27: after a step that takes a command, `STATUS` has DONE 1, the reserved bits 0, a code that is nonzero
exactly when ERR is 1, and one of the five values; no other move of the host but reset changes it; the four
errors have the codes 1 to 4. -/
def Obligations.StatusRegisterFields : Prop :=
  (∀ (s t : State) (cw : CommandWord) (rest : List HostAction),
    s.pending = .command cw :: rest → step s = .next t →
      statusDone t.status = true ∧ statusReserved t.status = 0#3 ∧
      (statusErrcode t.status ≠ 0#3 ↔ statusErr t.status = true) ∧
      t.status ∈ [0x80#8, 0xC1#8, 0xC2#8, 0xC3#8, 0xC4#8]) ∧
  (∀ (s t : State) (m : HostMove), m ≠ .reset → hostMove m s = .next t →
    t.status = s.status) ∧
  State.reset.status = 0x00#8 ∧
  ErrorKind.unencodableCharacter.code = 1#3 ∧ ErrorKind.malformedInput.code = 2#3 ∧
  ErrorKind.segmentLimitTooSmall.code = 3#3 ∧ ErrorKind.illegalCommand.code = 4#3

/-- R208: a command issued again on the same buffers gives the same outputs: nothing is sticky. -/
def Obligations.ReissuedCommandGivesTheSameState : Prop :=
  ∀ (i j : Instr) (s t u : State), exec i s = .next t → exec j s = .next u → exec i u = .next t

/-! ### Reset, the host's moves, several instances -/

/-- R34, R230: the state after reset, in which the operands are empty. -/
def Obligations.ResetLeavesTheSpecifiedValues : Prop :=
  State.reset.status = 0x00#8 ∧ State.reset.result = 0x00#8 ∧ State.reset.segCnt = 0 ∧
  State.reset.tLen = 0 ∧ State.reset.tinLen = 0 ∧ State.reset.binLen = 0 ∧
  textOperand State.reset = [] ∧ byteOperand State.reset = [] ∧
  ∀ i, Memory.lookup State.reset.tin i = none ∧ Memory.lookup State.reset.bin i = none

/-- R230: resetting a running block puts every piece of the spec's state at its reset value, whatever it
held; the first command after it sees empty operands. That what the host does next stays is the MODEL's
choice (log entry 14). -/
def Obligations.ResetMoveRestoresTheResetState : Prop :=
  ∀ s : State, ∃ t, hostMove .reset s = .next t ∧
    t = { State.reset with pending := s.pending, tinEpoch := t.tinEpoch, binEpoch := t.binEpoch } ∧
    textOperand t = [] ∧ byteOperand t = []

/-- R22, R23, R61: an operand is the elements below its length register, in index order; an element is the
value stored at its index, or the free value of log entry 4 where nothing is stored. -/
def Obligations.OperandsAreTheElementsBelowTheLength : Prop :=
  ∀ (s : State) (i : Nat),
    (textOperand s)[i]? =
      (if i < s.tinLen then some ((Memory.lookup s.tin i).getD (Config.unspecText s.tinEpoch i)) else none) ∧
    (byteOperand s)[i]? =
      (if i < s.binLen then some ((Memory.lookup s.bin i).getD (Config.unspecOctet s.binEpoch i)) else none)

/-- R53, R62: a write of one element of an input buffer changes the reading of that element alone and nothing
else of the state; past the capacity it has no transition, which the model answers as a refusal (log entry 12). -/
def Obligations.ElementWriteChangesOneElement : Prop :=
  (∀ (s : State) (i : Nat) (v : CodePoint), ∃ m,
    hostMove (.writeTin i v) s =
      (if i < Config.tMax then .next { s with tin := m } else .refused .beyondTextCapacity) ∧
    ∀ j, readTin { s with tin := m } j = if j = i then v else readTin s j) ∧
  (∀ (s : State) (i : Nat) (v : Octet), ∃ m,
    hostMove (.writeBin i v) s =
      (if i < Config.bMax then .next { s with bin := m } else .refused .beyondByteCapacity) ∧
    ∀ j, readBin { s with bin := m } j = if j = i then v else readBin s j)

/-- R231 with R22, R23, R62: loading the elements of an operand and then its length makes it the operand,
and changes nothing but that buffer: where the length is raised this rests on the MODEL's choice that elements
stored past the old length are kept, which log entry 4 calls unsafe; a load past the capacity has no transition, which the
model answers as a refusal (log entry 12). -/
def Obligations.LoadedOperandIsRead : Prop :=
  (∀ (t : Text) (s : State),
    if t.length ≤ Config.tMax then
      ∃ u, hostMoves (loadText t) s = .next u ∧ textOperand u = t ∧
        u = { s with tin := u.tin, tinLen := t.length, tinEpoch := u.tinEpoch }
    else hostMoves (loadText t) s = .refused .beyondTextCapacity) ∧
  (∀ (b : List Octet) (s : State),
    if b.length ≤ Config.bMax then
      ∃ u, hostMoves (loadOctets b) s = .next u ∧ byteOperand u = b ∧
        u = { s with bin := u.bin, binLen := b.length, binEpoch := u.binEpoch }
    else hostMoves (loadOctets b) s = .refused .beyondByteCapacity)

/-- R22, R62: a write of a length register sets it, keeps every stored element below the new length as an
element of the operand (the MODEL's reading of what a length write leaves, log entry 4) and changes nothing
else of the state; past the capacity it has no transition. -/
def Obligations.LengthWriteKeepsTheStoredElementsBelow : Prop :=
  ∀ (s : State) (n : Nat), ∃ t u,
    hostMove (.writeTinLen n) s = (if n ≤ Config.tMax then .next t else .refused .beyondTextCapacity) ∧
    hostMove (.writeBinLen n) s = (if n ≤ Config.bMax then .next u else .refused .beyondByteCapacity) ∧
    t = { s with tin := t.tin, tinLen := n, tinEpoch := t.tinEpoch } ∧
    u = { s with bin := u.bin, binLen := n, binEpoch := u.binEpoch } ∧
    (∀ i v, i < n → Memory.lookup s.tin i = some v → (textOperand t)[i]? = some v) ∧
    (∀ i v, i < n → Memory.lookup s.bin i = some v → (byteOperand u)[i]? = some v)

/-- R34, R35, R53: a read by the host changes nothing; in a state where the invariant holds it is answered
exactly below the length registers, and past them it has no transition, which the model answers as a refusal
(log entry 12). -/
def Obligations.HostReadsHaveNoEffect : Prop :=
  (∀ (r : ReadTarget) (s : State),
    hostMove (.read r) s = (if (hostRead r s).isSome then .next s else .refused .readBeyondLength)) ∧
  (∀ s : State, Inv s →
    (∀ k, hostRead (.segLen k) s = (s.bout[k]?).map List.length) ∧
    (∀ k j, hostRead (.bout k j) s = ((s.bout[k]?).bind (fun g => g[j]?)).map BitVec.toNat) ∧
    (∀ i, hostRead (.tout i) s = (s.tout[i]?).map BitVec.toNat) ∧
    (∀ i, hostRead (.tin i) s = ((textOperand s)[i]?).map BitVec.toNat) ∧
    (∀ i, hostRead (.bin i) s = ((byteOperand s)[i]?).map BitVec.toNat) ∧
    hostRead .segCnt s = some s.bout.length ∧ hostRead .tLen s = some s.tout.length ∧
    hostRead .tinLen s = some (textOperand s).length ∧ hostRead .binLen s = some (byteOperand s).length ∧
    hostRead .status s = some s.status.toNat ∧ hostRead .result s = some s.result.toNat)

/-- R78, R189: the pseudo-command SEND completes; it ends as SSPLIT does when that raises, and otherwise
as ESPLIT or ENC does by the truth value of SSPLIT, so that every segment it leaves is within the limit, which
follows from rules R112, R138, R166 and R182. -/
def Obligations.SendLeavesSegmentsWithinTheLimit : Prop :=
  ∀ (c : Codec) (limit : Nat) (s : State), ∃ t u,
    exec (Instr.of c .ssplit limit) s = .next t ∧ send c limit s = .next u ∧
    (statusErr t.status = true → u = t) ∧
    (statusErr t.status = false → t.result = 0x01#8 → exec (Instr.of c .esplit limit) t = .next u) ∧
    (statusErr t.status = false → t.result = 0x00#8 → exec (Instr.of c .enc 0) t = .next u) ∧
    (∀ g ∈ u.bout, g.length ≤ limit)

/-- R10: a step of one of several instances is that instance's own step, and leaves every other as it was. -/
def Obligations.InstancesDoNotDisturbEachOther : Prop :=
  ∀ (sys sys' : List State) (k : Nat), systemStep sys k = .next sys' →
    sys'.length = sys.length ∧ (∀ j, j ≠ k → sys'[j]? = sys[j]?) ∧
    (∀ s, sys[k]? = some s → ∃ t, step s = .next t ∧ sys'[k]? = some t)

/-! ### The invariant -/

/-- The invariant holds at reset (R34). -/
def Obligations.InvariantHoldsAtReset : Prop := Inv State.reset

/-- Every step keeps the invariant: the buffers stay canonical and within `T_MAX` and `B_MAX`, the length
registers agree with the outputs, `STATUS` and `RESULT` hold legal values, the outputs are empty unless the
last command ended without error, they stay within the capacities of rules R24 and R25 for every `T_MAX` and
`B_MAX`, and `TOUT` holds Unicode scalar values (R22 to R27, R62, R206),
and the command words to come keep the one LIMIT width of the port (R4, R70). -/
def Obligations.EveryStepKeepsTheInvariant : Prop :=
  ∀ s t : State, Inv s → step s = .next t → Inv t

/-! ### The LIMIT width -/

/-- R4, R70: `LW` is open and only bounds the limits a word can express: words of ports of any two widths with
the same opcode byte and the same limit do the same, and a command of any limit runs from a word of every
width that can express it. -/
def Obligations.LimitWidthOnlyBoundsTheLimit : Prop :=
  (∀ (cw cw' : CommandWord) (s : State), opcodeField cw.bits = opcodeField cw'.bits →
    limitField cw.bits = limitField cw'.bits → issue cw s = issue cw' s) ∧
  (∀ (lw : Nat) (i : Instr) (s : State), i.wfAt lw = true → issue (encode lw i) s = exec i s)
end

