-- ==== Sys2Proof/Laws/State.lean ====
section
/-! SUPPORT. One lemma per field of `State` per update, each true by unfolding, so that no proof unfolds a
record update. -/

namespace Sys2Proof.Machine


section writeBout
variable (segs : List (List Octet)) (s : State)

@[simp] theorem writeBout_tin : (writeBout segs s).tin = s.tin := rfl
@[simp] theorem writeBout_tinLen : (writeBout segs s).tinLen = s.tinLen := rfl
@[simp] theorem writeBout_bin : (writeBout segs s).bin = s.bin := rfl
@[simp] theorem writeBout_binLen : (writeBout segs s).binLen = s.binLen := rfl
@[simp] theorem writeBout_bout : (writeBout segs s).bout = segs := rfl
@[simp] theorem writeBout_segCnt : (writeBout segs s).segCnt = segs.length := rfl
@[simp] theorem writeBout_segLen : (writeBout segs s).segLen = segs.map List.length := rfl
@[simp] theorem writeBout_tout : (writeBout segs s).tout = s.tout := rfl
@[simp] theorem writeBout_tLen : (writeBout segs s).tLen = s.tLen := rfl
@[simp] theorem writeBout_result : (writeBout segs s).result = s.result := rfl
@[simp] theorem writeBout_status : (writeBout segs s).status = s.status := rfl
@[simp] theorem writeBout_pending : (writeBout segs s).pending = s.pending := rfl
@[simp] theorem writeBout_tinEpoch : (writeBout segs s).tinEpoch = s.tinEpoch := rfl
@[simp] theorem writeBout_binEpoch : (writeBout segs s).binEpoch = s.binEpoch := rfl
end writeBout

section writeTout
variable (t : Text) (s : State)

@[simp] theorem writeTout_tin : (writeTout t s).tin = s.tin := rfl
@[simp] theorem writeTout_tinLen : (writeTout t s).tinLen = s.tinLen := rfl
@[simp] theorem writeTout_bin : (writeTout t s).bin = s.bin := rfl
@[simp] theorem writeTout_binLen : (writeTout t s).binLen = s.binLen := rfl
@[simp] theorem writeTout_bout : (writeTout t s).bout = s.bout := rfl
@[simp] theorem writeTout_segCnt : (writeTout t s).segCnt = s.segCnt := rfl
@[simp] theorem writeTout_segLen : (writeTout t s).segLen = s.segLen := rfl
@[simp] theorem writeTout_tout : (writeTout t s).tout = t := rfl
@[simp] theorem writeTout_tLen : (writeTout t s).tLen = t.length := rfl
@[simp] theorem writeTout_result : (writeTout t s).result = s.result := rfl
@[simp] theorem writeTout_status : (writeTout t s).status = s.status := rfl
@[simp] theorem writeTout_pending : (writeTout t s).pending = s.pending := rfl
@[simp] theorem writeTout_tinEpoch : (writeTout t s).tinEpoch = s.tinEpoch := rfl
@[simp] theorem writeTout_binEpoch : (writeTout t s).binEpoch = s.binEpoch := rfl
end writeTout

section writeResult
variable (v : BitVec 8) (s : State)

@[simp] theorem writeResult_tin : (writeResult v s).tin = s.tin := rfl
@[simp] theorem writeResult_tinLen : (writeResult v s).tinLen = s.tinLen := rfl
@[simp] theorem writeResult_bin : (writeResult v s).bin = s.bin := rfl
@[simp] theorem writeResult_binLen : (writeResult v s).binLen = s.binLen := rfl
@[simp] theorem writeResult_bout : (writeResult v s).bout = s.bout := rfl
@[simp] theorem writeResult_segCnt : (writeResult v s).segCnt = s.segCnt := rfl
@[simp] theorem writeResult_segLen : (writeResult v s).segLen = s.segLen := rfl
@[simp] theorem writeResult_tout : (writeResult v s).tout = s.tout := rfl
@[simp] theorem writeResult_tLen : (writeResult v s).tLen = s.tLen := rfl
@[simp] theorem writeResult_result : (writeResult v s).result = v := rfl
@[simp] theorem writeResult_status : (writeResult v s).status = s.status := rfl
@[simp] theorem writeResult_pending : (writeResult v s).pending = s.pending := rfl
@[simp] theorem writeResult_tinEpoch : (writeResult v s).tinEpoch = s.tinEpoch := rfl
@[simp] theorem writeResult_binEpoch : (writeResult v s).binEpoch = s.binEpoch := rfl
end writeResult

section writeStatus
variable (v : BitVec 8) (s : State)

@[simp] theorem writeStatus_tin : (writeStatus v s).tin = s.tin := rfl
@[simp] theorem writeStatus_tinLen : (writeStatus v s).tinLen = s.tinLen := rfl
@[simp] theorem writeStatus_bin : (writeStatus v s).bin = s.bin := rfl
@[simp] theorem writeStatus_binLen : (writeStatus v s).binLen = s.binLen := rfl
@[simp] theorem writeStatus_bout : (writeStatus v s).bout = s.bout := rfl
@[simp] theorem writeStatus_segCnt : (writeStatus v s).segCnt = s.segCnt := rfl
@[simp] theorem writeStatus_segLen : (writeStatus v s).segLen = s.segLen := rfl
@[simp] theorem writeStatus_tout : (writeStatus v s).tout = s.tout := rfl
@[simp] theorem writeStatus_tLen : (writeStatus v s).tLen = s.tLen := rfl
@[simp] theorem writeStatus_result : (writeStatus v s).result = s.result := rfl
@[simp] theorem writeStatus_status : (writeStatus v s).status = v := rfl
@[simp] theorem writeStatus_pending : (writeStatus v s).pending = s.pending := rfl
@[simp] theorem writeStatus_tinEpoch : (writeStatus v s).tinEpoch = s.tinEpoch := rfl
@[simp] theorem writeStatus_binEpoch : (writeStatus v s).binEpoch = s.binEpoch := rfl
end writeStatus

section clearOutputs
variable (s : State)

@[simp] theorem clearOutputs_tin : (clearOutputs s).tin = s.tin := rfl
@[simp] theorem clearOutputs_tinLen : (clearOutputs s).tinLen = s.tinLen := rfl
@[simp] theorem clearOutputs_bin : (clearOutputs s).bin = s.bin := rfl
@[simp] theorem clearOutputs_binLen : (clearOutputs s).binLen = s.binLen := rfl
@[simp] theorem clearOutputs_bout : (clearOutputs s).bout = [] := rfl
@[simp] theorem clearOutputs_segCnt : (clearOutputs s).segCnt = 0 := rfl
@[simp] theorem clearOutputs_segLen : (clearOutputs s).segLen = [] := rfl
@[simp] theorem clearOutputs_tout : (clearOutputs s).tout = [] := rfl
@[simp] theorem clearOutputs_tLen : (clearOutputs s).tLen = 0 := rfl
@[simp] theorem clearOutputs_result : (clearOutputs s).result = 0x00#8 := rfl
@[simp] theorem clearOutputs_status : (clearOutputs s).status = s.status := rfl
@[simp] theorem clearOutputs_pending : (clearOutputs s).pending = s.pending := rfl
@[simp] theorem clearOutputs_tinEpoch : (clearOutputs s).tinEpoch = s.tinEpoch := rfl
@[simp] theorem clearOutputs_binEpoch : (clearOutputs s).binEpoch = s.binEpoch := rfl
end clearOutputs

section raise
variable (e : ErrorKind) (s : State)

@[simp] theorem raise_tin : (raise e s).tin = s.tin := rfl
@[simp] theorem raise_tinLen : (raise e s).tinLen = s.tinLen := rfl
@[simp] theorem raise_bin : (raise e s).bin = s.bin := rfl
@[simp] theorem raise_binLen : (raise e s).binLen = s.binLen := rfl
@[simp] theorem raise_bout : (raise e s).bout = [] := rfl
@[simp] theorem raise_segCnt : (raise e s).segCnt = 0 := rfl
@[simp] theorem raise_segLen : (raise e s).segLen = [] := rfl
@[simp] theorem raise_tout : (raise e s).tout = [] := rfl
@[simp] theorem raise_tLen : (raise e s).tLen = 0 := rfl
@[simp] theorem raise_result : (raise e s).result = 0x00#8 := rfl
@[simp] theorem raise_status : (raise e s).status = errorStatus e := rfl
@[simp] theorem raise_pending : (raise e s).pending = s.pending := rfl
@[simp] theorem raise_tinEpoch : (raise e s).tinEpoch = s.tinEpoch := rfl
@[simp] theorem raise_binEpoch : (raise e s).binEpoch = s.binEpoch := rfl
end raise

section commandEnd
variable (segs : List (List Octet)) (text : Text) (r v : BitVec 8) (s : State)

@[simp] theorem commandEnd_tin : (commandEnd segs text r v s).tin = s.tin := rfl
@[simp] theorem commandEnd_tinLen : (commandEnd segs text r v s).tinLen = s.tinLen := rfl
@[simp] theorem commandEnd_bin : (commandEnd segs text r v s).bin = s.bin := rfl
@[simp] theorem commandEnd_binLen : (commandEnd segs text r v s).binLen = s.binLen := rfl
@[simp] theorem commandEnd_bout : (commandEnd segs text r v s).bout = segs := rfl
@[simp] theorem commandEnd_segCnt : (commandEnd segs text r v s).segCnt = segs.length := rfl
@[simp] theorem commandEnd_segLen : (commandEnd segs text r v s).segLen = segs.map List.length := rfl
@[simp] theorem commandEnd_tout : (commandEnd segs text r v s).tout = text := rfl
@[simp] theorem commandEnd_tLen : (commandEnd segs text r v s).tLen = text.length := rfl
@[simp] theorem commandEnd_result : (commandEnd segs text r v s).result = r := rfl
@[simp] theorem commandEnd_status : (commandEnd segs text r v s).status = v := rfl
@[simp] theorem commandEnd_pending : (commandEnd segs text r v s).pending = s.pending := rfl
@[simp] theorem commandEnd_tinEpoch : (commandEnd segs text r v s).tinEpoch = s.tinEpoch := rfl
@[simp] theorem commandEnd_binEpoch : (commandEnd segs text r v s).binEpoch = s.binEpoch := rfl
end commandEnd

section offerCommand
variable (cw : CommandWord) (s : State)

@[simp] theorem offerCommand_tin : (offerCommand cw s).tin = s.tin := rfl
@[simp] theorem offerCommand_tinLen : (offerCommand cw s).tinLen = s.tinLen := rfl
@[simp] theorem offerCommand_bin : (offerCommand cw s).bin = s.bin := rfl
@[simp] theorem offerCommand_binLen : (offerCommand cw s).binLen = s.binLen := rfl
@[simp] theorem offerCommand_bout : (offerCommand cw s).bout = s.bout := rfl
@[simp] theorem offerCommand_segCnt : (offerCommand cw s).segCnt = s.segCnt := rfl
@[simp] theorem offerCommand_segLen : (offerCommand cw s).segLen = s.segLen := rfl
@[simp] theorem offerCommand_tout : (offerCommand cw s).tout = s.tout := rfl
@[simp] theorem offerCommand_tLen : (offerCommand cw s).tLen = s.tLen := rfl
@[simp] theorem offerCommand_result : (offerCommand cw s).result = s.result := rfl
@[simp] theorem offerCommand_status : (offerCommand cw s).status = s.status := rfl
@[simp] theorem offerCommand_pending : (offerCommand cw s).pending = .command cw :: s.pending := rfl
@[simp] theorem offerCommand_tinEpoch : (offerCommand cw s).tinEpoch = s.tinEpoch := rfl
@[simp] theorem offerCommand_binEpoch : (offerCommand cw s).binEpoch = s.binEpoch := rfl
end offerCommand

section resetBlock
variable (s : State)

@[simp] theorem resetBlock_tin : (resetBlock s).tin = [] := rfl
@[simp] theorem resetBlock_tinLen : (resetBlock s).tinLen = 0 := rfl
@[simp] theorem resetBlock_bin : (resetBlock s).bin = [] := rfl
@[simp] theorem resetBlock_binLen : (resetBlock s).binLen = 0 := rfl
@[simp] theorem resetBlock_bout : (resetBlock s).bout = [] := rfl
@[simp] theorem resetBlock_segCnt : (resetBlock s).segCnt = 0 := rfl
@[simp] theorem resetBlock_segLen : (resetBlock s).segLen = [] := rfl
@[simp] theorem resetBlock_tout : (resetBlock s).tout = [] := rfl
@[simp] theorem resetBlock_tLen : (resetBlock s).tLen = 0 := rfl
@[simp] theorem resetBlock_result : (resetBlock s).result = 0x00#8 := rfl
@[simp] theorem resetBlock_status : (resetBlock s).status = 0x00#8 := rfl
@[simp] theorem resetBlock_pending : (resetBlock s).pending = s.pending := rfl
@[simp] theorem resetBlock_tinEpoch : (resetBlock s).tinEpoch = s.tinEpoch + 1 := rfl
@[simp] theorem resetBlock_binEpoch : (resetBlock s).binEpoch = s.binEpoch + 1 := rfl
end resetBlock

/-- Clearing, writing results and writing `STATUS` leave exactly the state `commandEnd` names. -/
theorem commandEnd_of_writeBout (segs : List (List Octet)) (s : State) :
    writeStatus okStatus (writeBout segs (clearOutputs s)) = commandEnd segs [] 0x00#8 0x80#8 s := rfl

theorem commandEnd_of_writeTout (t : Text) (s : State) :
    writeStatus okStatus (writeTout t (clearOutputs s)) = commandEnd [] t 0x00#8 0x80#8 s := rfl

theorem commandEnd_of_writeResult (v : BitVec 8) (s : State) :
    writeStatus okStatus (writeResult v (clearOutputs s)) = commandEnd [] [] v 0x80#8 s := rfl

/-- Raising an error leaves empty outputs, `RESULT` 0 and the error's `STATUS` (R206). -/
theorem raise_eq_commandEnd (e : ErrorKind) (s : State) :
    raise e s = commandEnd [] [] 0x00#8 (errorStatus e) s := rfl

/-- The last command's outputs are all that is left of the outputs (R33). -/
@[simp] theorem commandEnd_commandEnd (a a' : List (List Octet)) (b b' : Text) (r r' v v' : BitVec 8) (s : State) :
    commandEnd a b r v (commandEnd a' b' r' v' s) = commandEnd a b r v s := rfl

@[simp] theorem readTin_commandEnd (a : List (List Octet)) (b : Text) (r v : BitVec 8) (s : State) :
    readTin (commandEnd a b r v s) = readTin s := rfl

@[simp] theorem readBin_commandEnd (a : List (List Octet)) (b : Text) (r v : BitVec 8) (s : State) :
    readBin (commandEnd a b r v s) = readBin s := rfl

@[simp] theorem textOperand_commandEnd (a : List (List Octet)) (b : Text) (r v : BitVec 8) (s : State) :
    textOperand (commandEnd a b r v s) = textOperand s := rfl

@[simp] theorem byteOperand_commandEnd (a : List (List Octet)) (b : Text) (r v : BitVec 8) (s : State) :
    byteOperand (commandEnd a b r v s) = byteOperand s := rfl

/-- A state's operands depend on nothing that taking an action out of `pending` changes. -/
@[simp] theorem textOperand_pending (s : State) (p : List HostAction) :
    textOperand { s with pending := p } = textOperand s := rfl

@[simp] theorem byteOperand_pending (s : State) (p : List HostAction) :
    byteOperand { s with pending := p } = byteOperand s := rfl

end Sys2Proof.Machine
end

