-- ==== Sys2Proof/Laws/Memory.lean ====
section
/-! SUPPORT. The stored elements of an input buffer: read after write, and that every operation keeps the
canonical form. -/

namespace Sys2Proof.Machine

section memory
variable {w : Nat}

@[simp] theorem Memory.lookup_nil (i : Nat) : Memory.lookup ([] : Memory w) i = none := rfl

/-- A read after a write to the same index gives the value written. -/
@[simp] theorem Memory.lookup_write_self (m : Memory w) (i : Nat) (v : BitVec w) :
    Memory.lookup (Memory.write m i v) i = some v := by
  induction m with
  | nil => simp [Memory.write, Memory.lookup]
  | cons p m ih =>
    obtain ⟨a, u⟩ := p
    simp only [Memory.write]
    split
    · simp [Memory.lookup]
    · split
      · simp [Memory.lookup]
      · simp [Memory.lookup, *]

/-- A write leaves every other index alone. -/
theorem Memory.lookup_write_other (m : Memory w) {i j : Nat} (v : BitVec w) (h : j ≠ i) :
    Memory.lookup (Memory.write m i v) j = Memory.lookup m j := by
  induction m with
  | nil => simp [Memory.write, Memory.lookup, h]
  | cons p m ih =>
    obtain ⟨a, u⟩ := p
    simp only [Memory.write]
    split
    · simp [Memory.lookup, h]
    · split
      · rename_i _ hia
        subst hia
        simp [Memory.lookup, h]
      · simp [Memory.lookup, ih]

/-- The entries a write can leave. -/
theorem Memory.mem_write {m : Memory w} {i : Nat} {v : BitVec w} {p : Nat × BitVec w}
    (h : p ∈ Memory.write m i v) : p = (i, v) ∨ p ∈ m := by
  induction m with
  | nil => simpa [Memory.write] using h
  | cons q m ih =>
    obtain ⟨a, u⟩ := q
    simp only [Memory.write] at h
    split at h
    · simpa using h
    · split at h
      · simp only [List.mem_cons] at h ⊢
        tauto
      · simp only [List.mem_cons] at h ⊢
        rcases h with h | h
        · exact .inr (.inl h)
        · rcases ih h with h | h
          · exact .inl h
          · exact .inr (.inr h)

theorem Memory.nil_wf : Memory.wf ([] : Memory w) := List.Pairwise.nil

/-- A write keeps the canonical form. -/
theorem Memory.write_wf {m : Memory w} (h : Memory.wf m) (i : Nat) (v : BitVec w) :
    Memory.wf (Memory.write m i v) := by
  induction m with
  | nil => simp [Memory.write, Memory.wf]
  | cons q m ih =>
    obtain ⟨a, u⟩ := q
    have hq := List.pairwise_cons.mp h
    simp only [Memory.write]
    split
    · rename_i hia
      refine List.pairwise_cons.mpr ⟨?_, h⟩
      intro p hp
      rcases List.mem_cons.mp hp with rfl | hp
      · exact hia
      · exact Nat.lt_trans hia (hq.1 p hp)
    · split
      · rename_i _ hia
        subst hia
        exact List.pairwise_cons.mpr ⟨hq.1, hq.2⟩
      · refine List.pairwise_cons.mpr ⟨?_, ih hq.2⟩
        intro p hp
        rcases Memory.mem_write hp with rfl | hp
        · show a < i
          omega
        · exact hq.1 p hp

/-- Dropping elements keeps the canonical form. -/
theorem Memory.below_wf {m : Memory w} (h : Memory.wf m) (n : Nat) : Memory.wf (Memory.below m n) :=
  List.Pairwise.sublist (List.filter_sublist) h

/-- What the elements kept below `n` read as. -/
theorem Memory.lookup_below (m : Memory w) (n i : Nat) :
    Memory.lookup (Memory.below m n) i = if i < n then Memory.lookup m i else none := by
  induction m with
  | nil => simp [Memory.below]
  | cons q m ih =>
    obtain ⟨a, u⟩ := q
    simp only [Memory.below, List.filter_cons] at ih ⊢
    split <;> simp only [Memory.lookup, ih] <;> grind

end memory

end Sys2Proof.Machine
end

