-- ==== Sys2Proof/Laws/Commands.lean ====
section
/-! SUPPORT. What each shared operation can do, said once: the frame of a command, the lookup of a text, the
operands, and the decoder. -/

namespace Sys2Proof.Machine

/-- What `runCommand` can do: write the results of the work and `STATUS = 0x80`, or raise its error. -/
theorem runCommand_cases {α : Type} (work : Except ErrorKind α) (write : α → State → State) (s : State) :
    (∃ a, work = .ok a ∧
      runCommand work write s = .next (writeStatus okStatus (write a (clearOutputs s)))) ∨
    (∃ e, work = .error e ∧ runCommand work write s = .next (raise e s)) := by
  cases work with
  | ok a => exact .inl ⟨a, rfl, rfl⟩
  | error e => exact .inr ⟨e, rfl, rfl⟩

@[simp] theorem encodeCommand_eq (enc : Text → Except ErrorKind (List Octet)) (s : State) :
    encodeCommand enc s = match enc (textOperand s) with
      | .ok b => .next (commandEnd [b] [] 0x00#8 0x80#8 s)
      | .error e => .next (commandEnd [] [] 0x00#8 (errorStatus e) s) := by
  unfold encodeCommand runCommand
  cases enc (textOperand s) <;> rfl

@[simp] theorem decodeCommand_eq (dec : List Octet → Except ErrorKind Text) (s : State) :
    decodeCommand dec s = match dec (byteOperand s) with
      | .ok t => .next (commandEnd [] t 0x00#8 0x80#8 s)
      | .error e => .next (commandEnd [] [] 0x00#8 (errorStatus e) s) := by
  unfold decodeCommand runCommand
  cases dec (byteOperand s) <;> rfl

@[simp] theorem shouldSplitCommand_eq (size : Text → Except ErrorKind Nat) (limit : Nat) (s : State) :
    shouldSplitCommand size limit s = match size (textOperand s) with
      | .ok n => .next (commandEnd [] [] (if limit < n then 0x01#8 else 0x00#8) 0x80#8 s)
      | .error e => .next (commandEnd [] [] 0x00#8 (errorStatus e) s) := by
  unfold shouldSplitCommand runCommand
  cases size (textOperand s) <;> rfl

@[simp] theorem splitCommand_eq (split : Text → Except ErrorKind (List (List Octet))) (s : State) :
    splitCommand split s = match split (textOperand s) with
      | .ok b => .next (commandEnd b [] 0x00#8 0x80#8 s)
      | .error e => .next (commandEnd [] [] 0x00#8 (errorStatus e) s) := by
  unfold splitCommand runCommand
  cases split (textOperand s) <;> rfl

@[simp] theorem dataCodingCommand_eq (id : BitVec 8) (s : State) :
    dataCodingCommand id s = .next (commandEnd [] [] id 0x80#8 s) := rfl

@[simp] theorem errorStatus_unencodable : errorStatus .unencodableCharacter = 0xC1#8 := rfl
@[simp] theorem errorStatus_malformed : errorStatus .malformedInput = 0xC2#8 := rfl
@[simp] theorem errorStatus_limit : errorStatus .segmentLimitTooSmall = 0xC3#8 := rfl
@[simp] theorem errorStatus_illegal : errorStatus .illegalCommand = 0xC4#8 := rfl

/-- Looking a text up answers units exactly when each character has its own. -/
theorem lookupAll_ok {β : Type} (unit : CodePoint → Except ErrorKind β) (t : Text) (us : List β) :
    lookupAll unit t = .ok us ↔ List.Forall₂ (fun cp u => unit cp = .ok u) t us := by
  induction t generalizing us with
  | nil => cases us <;> simp [lookupAll]
  | cons cp t ih =>
    cases hu : unit cp with
    | error e => cases us <;> simp [lookupAll, hu]
    | ok u =>
      cases hr : lookupAll unit t with
      | error e =>
        cases us with
        | nil => simp [lookupAll, hu, hr]
        | cons v vs =>
          have hno : ¬ List.Forall₂ (fun cp u => unit cp = .ok u) t vs := fun h => by
            have h' := (ih vs).mpr h
            rw [hr] at h'
            cases h'
          simp [lookupAll, hu, hr, hno]
      | ok ws =>
        cases us with
        | nil => simp [lookupAll, hu, hr]
        | cons v vs =>
          simp [lookupAll, hu, hr, ← ih]

/-- Looking a text up raises the error of its first character that has no unit. -/
theorem lookupAll_error {β : Type} (unit : CodePoint → Except ErrorKind β) (t : Text) (e : ErrorKind) :
    lookupAll unit t = .error e ↔
      ∃ p cp q, t = p ++ cp :: q ∧ (∀ x ∈ p, ∃ u, unit x = .ok u) ∧ unit cp = .error e := by
  induction t with
  | nil => simp [lookupAll]
  | cons c t ih =>
    cases hu : unit c with
    | error e' =>
      constructor
      · intro h
        simp only [lookupAll, hu, Except.error.injEq] at h
        exact ⟨[], c, t, rfl, by simp, by rw [hu, h]⟩
      · rintro ⟨p, cp, q, heq, hp, hcp⟩
        cases p with
        | nil =>
          simp only [List.nil_append, List.cons.injEq] at heq
          obtain ⟨rfl, rfl⟩ := heq
          simp only [lookupAll, hcp]
        | cons x p =>
          simp only [List.cons_append, List.cons.injEq] at heq
          obtain ⟨rfl, rfl⟩ := heq
          obtain ⟨u, hx⟩ := hp _ (List.mem_cons_self ..)
          rw [hu] at hx
          cases hx
    | ok u =>
      have hl : lookupAll unit (c :: t) = .error e ↔ lookupAll unit t = .error e := by
        cases hr : lookupAll unit t <;> simp [lookupAll, hu, hr]
      rw [hl, ih]
      constructor
      · rintro ⟨p, cp, q, rfl, hp, hcp⟩
        refine ⟨c :: p, cp, q, rfl, ?_, hcp⟩
        intro x hx
        rcases List.mem_cons.mp hx with rfl | hx
        · exact ⟨u, hu⟩
        · exact hp x hx
      · rintro ⟨p, cp, q, heq, hp, hcp⟩
        cases p with
        | nil =>
          simp only [List.nil_append, List.cons.injEq] at heq
          obtain ⟨rfl, rfl⟩ := heq
          rw [hu] at hcp
          cases hcp
        | cons x p =>
          simp only [List.cons_append, List.cons.injEq] at heq
          obtain ⟨rfl, rfl⟩ := heq
          exact ⟨p, cp, q, rfl, fun y hy => hp y (List.mem_cons_of_mem _ hy), hcp⟩

/-- The only error of the septet lookup of one character. -/
theorem unit7_error {cp : CodePoint} {e : ErrorKind} (h : unit7 cp = .error e) :
    e = .unencodableCharacter := by
  unfold unit7 at h
  split at h
  · cases h
  · split at h
    · cases h
    · cases h; rfl

/-- The only error of the UCS2 lookup of one character. -/
theorem unitU_error {cp : CodePoint} {e : ErrorKind} (h : unitU cp = .error e) :
    e = .unencodableCharacter := by
  unfold unitU at h
  split at h
  · cases h
  · split at h
    · cases h
    · cases h; rfl

/-- What the decoder can do: find both nibbles assigned, or name the reserved one (R74, R75). -/
theorem decodeAt_cases {lw : Nat} (cw : BitVec (lw + 8)) :
    (∃ c o, codecOfField (codecField cw) = some c ∧ opOfField (opField cw) = some o ∧
      decodeAt lw cw = .ok (Instr.of c o (limitField cw))) ∨
    (∃ r, decodeAt lw cw = .error r ∧
      (codecOfField (codecField cw) = none ∨ opOfField (opField cw) = none)) := by
  unfold decodeAt
  cases hc : codecOfField (codecField cw) with
  | none => exact .inr ⟨_, rfl, .inl rfl⟩
  | some c =>
    cases ho : opOfField (opField cw) with
    | none => exact .inr ⟨_, rfl, .inr rfl⟩
    | some o => exact .inl ⟨c, o, rfl, rfl, rfl⟩

@[simp] theorem textOperand_length (s : State) : (textOperand s).length = s.tinLen := by
  simp [textOperand]

@[simp] theorem byteOperand_length (s : State) : (byteOperand s).length = s.binLen := by
  simp [byteOperand]

/-- What one write of the command port can do: run the decoded command, or raise IllegalCommand (R74). -/
theorem issue_cases (cw : CommandWord) (s : State) :
    (∃ i, decode cw = .ok i ∧ issue cw s = exec i s) ∨
    (∃ r, decode cw = .error r ∧ issue cw s = .next (commandEnd [] [] 0x00#8 0xC4#8 s)) := by
  cases h : decode cw with
  | ok i => exact .inl ⟨i, rfl, by simp [issue, h]⟩
  | error r => exact .inr ⟨r, rfl, by simp [issue, h, raise_eq_commandEnd]⟩

/-- What a step can do: nothing, one command, or one host move. -/
theorem step_cases (s : State) :
    (s.pending = [] ∧ step s = .next s) ∨
    (∃ cw rest, s.pending = .command cw :: rest ∧ step s = issue cw { s with pending := rest }) ∨
    (∃ m rest, s.pending = .move m :: rest ∧ step s = hostMove m { s with pending := rest }) := by
  cases hp : s.pending with
  | nil => exact .inl ⟨rfl, by simp [step, nextAction, hp]⟩
  | cons a rest =>
    cases a with
    | command cw => exact .inr (.inl ⟨cw, rest, rfl, by simp [step, nextAction, hp]⟩)
    | move m => exact .inr (.inr ⟨m, rest, rfl, by simp [step, nextAction, hp]⟩)

end Sys2Proof.Machine
end

