-- ==== Sys2Proof/Laws/Codecs.lean ====
section
/-! SUPPORT. The shared operations of the codecs, said once: the equations of the loops that read one element
or two, the lengths and bits of the packer and the unpacker, and when the segmentation walk answers. -/

namespace Sys2Proof.Machine

/-- A text that starts with `cp` has the unit of `cp` and then the units of the rest. -/
theorem lookupAll_cons {β : Type} (unit : CodePoint → Except ErrorKind β) (cp : CodePoint) (t : Text)
    (us : List β) :
    lookupAll unit (cp :: t) = .ok us ↔
      ∃ u vs, us = u :: vs ∧ unit cp = .ok u ∧ lookupAll unit t = .ok vs := by
  cases hu : unit cp <;> cases hv : lookupAll unit t <;> simp [lookupAll, hu, hv, eq_comm]

/-- The loop of rule R97 on a sequence that starts with `b`. -/
theorem decodeSeptets_cons (b : Octet) (bs : List Octet) :
    decodeSeptets (b :: bs) =
      if 0x7F < b.toNat then .error .malformedInput
      else if b.setWidth 7 = escSeptet then
        match bs with
        | [] => .error .malformedInput
        | c :: cs =>
          if 0x7F < c.toNat then .error .malformedInput
          else
            match extDec (c.setWidth 7) with
            | none => .error .malformedInput
            | some cp => (decodeSeptets cs).map (cp :: ·)
      else
        match basicDec (b.setWidth 7) with
        | none => .error .malformedInput
        | some cp => (decodeSeptets bs).map (cp :: ·) := by
  cases bs <;> rfl

/-- The loop of rule R163 on a sequence that starts with the code unit `a`. -/
theorem decodeUnits_cons (a : CodeUnit) (us : List CodeUnit) :
    decodeUnits (a :: us) =
      if 0xD800 ≤ a.toNat ∧ a.toNat ≤ 0xDBFF then
        match us with
        | [] => .error .malformedInput
        | b :: vs =>
          if 0xDC00 ≤ b.toNat ∧ b.toNat ≤ 0xDFFF then
            (decodeUnits vs).map
              (BitVec.ofNat 21 (0x10000 + (a.toNat - 0xD800) * 0x400 + (b.toNat - 0xDC00)) :: ·)
          else .error .malformedInput
      else if 0xDC00 ≤ a.toNat ∧ a.toNat ≤ 0xDFFF then .error .malformedInput
      else (decodeUnits us).map (a.setWidth 21 :: ·) := by
  cases us <;> rfl

theorem bitSum_lt (f : Nat → Bool) (n : Nat) : bitSum f n < 2 ^ n := by
  induction n with
  | zero => simp [bitSum]
  | succ n ih => simp only [bitSum, pow_succ]; cases f n <;> simp <;> omega

/-- Bit `b` of a sum of bits is the bit summed at place `b`. -/
theorem bitSum_testBit (f : Nat → Bool) (n b : Nat) : (bitSum f n).testBit b = (decide (b < n) && f b) := by
  induction n with
  | zero => simp [bitSum]
  | succ n ih =>
    have hs : bitSum f (n + 1) = 2 ^ n * (f n).toNat + bitSum f n := by simp [bitSum]; ring
    rw [hs, Nat.testBit_two_pow_mul_add _ (bitSum_lt f n), ih]
    by_cases h : b < n
    · simp [h, show b < n + 1 by omega]
    · rcases Nat.lt_or_eq_of_le (Nat.le_of_not_lt h) with h' | rfl
      · have h1 : Nat.testBit 1 (b - n) = false := by
          cases hd : b - n with
          | zero => omega
          | succ m => simp [Nat.testBit_succ]
        cases f n <;> simp [h, show ¬ b < n + 1 by omega, h1]
      · cases hf : f n <;> simp

theorem ofNat_bitSum_getLsbD (w : Nat) (f : Nat → Bool) (b : Nat) :
    (BitVec.ofNat w (bitSum f w)).getLsbD b = (decide (b < w) && f b) := by
  simp [BitVec.getLsbD_ofNat, bitSum_testBit]

@[simp] theorem pack_length (S : List Septet) : (pack S).length = packedLen S.length := by simp [pack]

@[simp] theorem unpack_length (B : List Octet) : (unpack B).length = 8 * B.length / 7 := by simp [unpack]

/-- The bit of a stream inside its values. -/
theorem streamBit_lt {w : Nat} (xs : List (BitVec w)) {k : Nat} (hw : 0 < w) (h : k < w * xs.length) :
    ∃ x, xs[k / w]? = some x ∧ streamBit xs k = x.getLsbD (k % w) := by
  have hk : k / w < xs.length := by rw [Nat.div_lt_iff_lt_mul hw]; rwa [Nat.mul_comm]
  exact ⟨_, List.getElem?_eq_getElem hk, by simp [streamBit, List.getD, hk]⟩

/-- Past its values a stream is 0. -/
theorem streamBit_ge {w : Nat} (xs : List (BitVec w)) {k : Nat} (hw : 0 < w) (h : w * xs.length ≤ k) :
    streamBit xs k = false := by
  have hk : xs.length ≤ k / w := by rw [Nat.le_div_iff_mul_le hw]; rwa [Nat.mul_comm]
  simp [streamBit, List.getD, List.getElem?_eq_none hk]

/-- The walk fails when some unit does not fit alone, and answers otherwise (R181, R183). -/
theorem segmentWalk_answers {υ : Type} (cost : υ → Nat) (fits : Nat → Bool) (U : List υ) :
    ∀ (segs : List (List υ)) (g : List υ) (cur : Nat),
      ((∃ u ∈ U, fits (cost u) = false) → segmentWalk cost fits U segs g cur = .error .segmentLimitTooSmall) ∧
      ((∀ u ∈ U, fits (cost u) = true) → ∃ out, segmentWalk cost fits U segs g cur = .ok out) := by
  induction U with
  | nil => intro segs g cur; simp [segmentWalk]
  | cons u U ih =>
    intro segs g cur
    unfold segmentWalk
    by_cases hu : fits (cost u) = false
    · simp [hu]
    · simp only [Bool.not_eq_false] at hu
      simp [hu]
      split
      · exact ⟨fun x hx hf => (ih _ _ _).1 ⟨x, hx, hf⟩, (ih _ _ _).2⟩
      · exact ⟨fun x hx hf => (ih _ _ _).1 ⟨x, hx, hf⟩, (ih _ _ _).2⟩

end Sys2Proof.Machine
end

