-- ==== Sys2Proof/Laws/PerInstr.lean ====
section
/-! SUPPORT. The family `Fields`: a command is its codec, its operation and its LIMIT field, and its opcode
byte is its two nibbles (rules R70, R73). One lemma per constructor. -/

namespace Sys2Proof.Laws.Fields

/-- The three fields of a command give it back, and its opcode byte is the row's of rule R73. -/
def Statement (i : Instr) : Prop :=
  Instr.of i.codec i.op i.limit = i ∧
    ∃ r ∈ opcodeTable, r.codec = i.codec ∧ r.op = i.op ∧ r.pattern = opcodeOf i ∧ r.mnemonic = mnemonicOf i

theorem g7uEnc (limit : Nat) : Statement (.g7uEnc limit) :=
  ⟨rfl, ⟨"G7U.ENC", 0xFF#8, 0x00#8, .g7u, .enc⟩, by decide, rfl, rfl,
    (by decide : 0x00#8 = codecNibble .g7u ++ opNibble .enc),
    (by decide : "G7U.ENC" = codecName .g7u ++ "." ++ opName .enc)⟩

theorem g7uDec (limit : Nat) : Statement (.g7uDec limit) :=
  ⟨rfl, ⟨"G7U.DEC", 0xFF#8, 0x01#8, .g7u, .dec⟩, by decide, rfl, rfl,
    (by decide : 0x01#8 = codecNibble .g7u ++ opNibble .dec),
    (by decide : "G7U.DEC" = codecName .g7u ++ "." ++ opName .dec)⟩

theorem g7uSsplit (limit : Nat) : Statement (.g7uSsplit limit) :=
  ⟨rfl, ⟨"G7U.SSPLIT", 0xFF#8, 0x02#8, .g7u, .ssplit⟩, by decide, rfl, rfl,
    (by decide : 0x02#8 = codecNibble .g7u ++ opNibble .ssplit),
    (by decide : "G7U.SSPLIT" = codecName .g7u ++ "." ++ opName .ssplit)⟩

theorem g7uEsplit (limit : Nat) : Statement (.g7uEsplit limit) :=
  ⟨rfl, ⟨"G7U.ESPLIT", 0xFF#8, 0x03#8, .g7u, .esplit⟩, by decide, rfl, rfl,
    (by decide : 0x03#8 = codecNibble .g7u ++ opNibble .esplit),
    (by decide : "G7U.ESPLIT" = codecName .g7u ++ "." ++ opName .esplit)⟩

theorem g7uDcode (limit : Nat) : Statement (.g7uDcode limit) :=
  ⟨rfl, ⟨"G7U.DCODE", 0xFF#8, 0x04#8, .g7u, .dcode⟩, by decide, rfl, rfl,
    (by decide : 0x04#8 = codecNibble .g7u ++ opNibble .dcode),
    (by decide : "G7U.DCODE" = codecName .g7u ++ "." ++ opName .dcode)⟩

theorem g7pEnc (limit : Nat) : Statement (.g7pEnc limit) :=
  ⟨rfl, ⟨"G7P.ENC", 0xFF#8, 0x10#8, .g7p, .enc⟩, by decide, rfl, rfl,
    (by decide : 0x10#8 = codecNibble .g7p ++ opNibble .enc),
    (by decide : "G7P.ENC" = codecName .g7p ++ "." ++ opName .enc)⟩

theorem g7pDec (limit : Nat) : Statement (.g7pDec limit) :=
  ⟨rfl, ⟨"G7P.DEC", 0xFF#8, 0x11#8, .g7p, .dec⟩, by decide, rfl, rfl,
    (by decide : 0x11#8 = codecNibble .g7p ++ opNibble .dec),
    (by decide : "G7P.DEC" = codecName .g7p ++ "." ++ opName .dec)⟩

theorem g7pSsplit (limit : Nat) : Statement (.g7pSsplit limit) :=
  ⟨rfl, ⟨"G7P.SSPLIT", 0xFF#8, 0x12#8, .g7p, .ssplit⟩, by decide, rfl, rfl,
    (by decide : 0x12#8 = codecNibble .g7p ++ opNibble .ssplit),
    (by decide : "G7P.SSPLIT" = codecName .g7p ++ "." ++ opName .ssplit)⟩

theorem g7pEsplit (limit : Nat) : Statement (.g7pEsplit limit) :=
  ⟨rfl, ⟨"G7P.ESPLIT", 0xFF#8, 0x13#8, .g7p, .esplit⟩, by decide, rfl, rfl,
    (by decide : 0x13#8 = codecNibble .g7p ++ opNibble .esplit),
    (by decide : "G7P.ESPLIT" = codecName .g7p ++ "." ++ opName .esplit)⟩

theorem g7pDcode (limit : Nat) : Statement (.g7pDcode limit) :=
  ⟨rfl, ⟨"G7P.DCODE", 0xFF#8, 0x14#8, .g7p, .dcode⟩, by decide, rfl, rfl,
    (by decide : 0x14#8 = codecNibble .g7p ++ opNibble .dcode),
    (by decide : "G7P.DCODE" = codecName .g7p ++ "." ++ opName .dcode)⟩

theorem ucs2Enc (limit : Nat) : Statement (.ucs2Enc limit) :=
  ⟨rfl, ⟨"UCS2.ENC", 0xFF#8, 0x20#8, .ucs2, .enc⟩, by decide, rfl, rfl,
    (by decide : 0x20#8 = codecNibble .ucs2 ++ opNibble .enc),
    (by decide : "UCS2.ENC" = codecName .ucs2 ++ "." ++ opName .enc)⟩

theorem ucs2Dec (limit : Nat) : Statement (.ucs2Dec limit) :=
  ⟨rfl, ⟨"UCS2.DEC", 0xFF#8, 0x21#8, .ucs2, .dec⟩, by decide, rfl, rfl,
    (by decide : 0x21#8 = codecNibble .ucs2 ++ opNibble .dec),
    (by decide : "UCS2.DEC" = codecName .ucs2 ++ "." ++ opName .dec)⟩

theorem ucs2Ssplit (limit : Nat) : Statement (.ucs2Ssplit limit) :=
  ⟨rfl, ⟨"UCS2.SSPLIT", 0xFF#8, 0x22#8, .ucs2, .ssplit⟩, by decide, rfl, rfl,
    (by decide : 0x22#8 = codecNibble .ucs2 ++ opNibble .ssplit),
    (by decide : "UCS2.SSPLIT" = codecName .ucs2 ++ "." ++ opName .ssplit)⟩

theorem ucs2Esplit (limit : Nat) : Statement (.ucs2Esplit limit) :=
  ⟨rfl, ⟨"UCS2.ESPLIT", 0xFF#8, 0x23#8, .ucs2, .esplit⟩, by decide, rfl, rfl,
    (by decide : 0x23#8 = codecNibble .ucs2 ++ opNibble .esplit),
    (by decide : "UCS2.ESPLIT" = codecName .ucs2 ++ "." ++ opName .esplit)⟩

theorem ucs2Dcode (limit : Nat) : Statement (.ucs2Dcode limit) :=
  ⟨rfl, ⟨"UCS2.DCODE", 0xFF#8, 0x24#8, .ucs2, .dcode⟩, by decide, rfl, rfl,
    (by decide : 0x24#8 = codecNibble .ucs2 ++ opNibble .dcode),
    (by decide : "UCS2.DCODE" = codecName .ucs2 ++ "." ++ opName .dcode)⟩

end Sys2Proof.Laws.Fields
end

