-- ==== Sys2Proof/Tests/Slice0.lean ====
section
/-! SUPPORT. Tests of the model: the smoke test of well-formedness, words decoded by hand, one-step vectors
and, for every obligation with hypotheses, a concrete state and operands that meet them. Expected results
are those of `spec/95_test_vectors.md` (its names V-… stand beside them) or hand calculation from the rule
named. -/

open Sys2Proof Sys2Proof.Machine

namespace Sys2Proof.Tests

/-- A block with this text loaded. -/
def withText (t : Text) : State :=
  { State.reset with tin := t.mapIdx (fun i v => (i, v)), tinLen := t.length }

/-- A block with these octets loaded. -/
def withOctets (b : List Octet) : State :=
  { State.reset with bin := b.mapIdx (fun i v => (i, v)), binLen := b.length }

/-- A block whose host is about to do these things. -/
def withActions (a : List HostAction) : State := { State.reset with pending := a }

/-- The outcome is a next state of which `p` holds. -/
def answers (o : Host.Outcome State Fault Refusal) (p : State → Bool) : Bool :=
  match o with
  | .next t => p t
  | .fault _ => false
  | .refused _ => false

/-- The command leaves these segments, and `STATUS` 0x80. -/
def givesSegments (o : Host.Outcome State Fault Refusal) (segs : List (List Octet)) : Bool :=
  answers o (fun t => decide (t.bout = segs ∧ t.status = 0x80#8))

/-- The command leaves this text, and `STATUS` 0x80. -/
def givesText (o : Host.Outcome State Fault Refusal) (text : Text) : Bool :=
  answers o (fun t => decide (t.tout = text ∧ t.status = 0x80#8))

/-- The command leaves this `RESULT`, and `STATUS` 0x80. -/
def givesResult (o : Host.Outcome State Fault Refusal) (r : BitVec 8) : Bool :=
  answers o (fun t => decide (t.result = r ∧ t.status = 0x80#8))

/-- The command ends with this `STATUS`. -/
def givesStatus (o : Host.Outcome State Fault Refusal) (v : BitVec 8) : Bool :=
  answers o (fun t => decide (t.status = v))

/-- `"ab{cd"` of V-U9. -/
def abBraceCd : Text := [0x61#21, 0x62#21, 0x7B#21, 0x63#21, 0x64#21]

/-- `"abcdefg"` of V-P13, seven septets. -/
def sevenLetters : Text := [0x61#21, 0x62#21, 0x63#21, 0x64#21, 0x65#21, 0x66#21, 0x67#21]

/-- The text of V-C4. -/
def pairText : Text := [0x61#21, 0x62#21, 0x1F600#21, 0x63#21]

/-! ### Well-formedness (R70, U17): a limit of 2^16 fits no word with LW = 16 -/

theorem test_wf_refuses_wide_limit :
    ∀ c ∈ [Codec.g7u, .g7p, .ucs2], ∀ o ∈ [Op.enc, .dec, .ssplit, .esplit, .dcode],
      (Instr.of c o 0x10000).wfAt 16 = false ∧ (Instr.of c o 0xFFFF).wfAt 16 = true := by decide

/-! ### Decoding: one word of every row of rule R73, LIMIT above the opcode byte, and reserved words -/

theorem test_decode_g7u_enc : decodeAt 16 0b000000000000000000000000#24 = .ok (.g7uEnc 0) := by decide
theorem test_decode_g7u_dec : decodeAt 16 0b111111111111111100000001#24 = .ok (.g7uDec 0xFFFF) := by decide
theorem test_decode_g7u_ssplit : decodeAt 16 0b000000000000010100000010#24 = .ok (.g7uSsplit 5) := by decide
theorem test_decode_g7u_esplit : decodeAt 16 0b000000000000001100000011#24 = .ok (.g7uEsplit 3) := by decide
theorem test_decode_g7u_dcode : decodeAt 16 0b000000000000000000000100#24 = .ok (.g7uDcode 0) := by decide
theorem test_decode_g7p_enc : decodeAt 16 0b000000000000000000010000#24 = .ok (.g7pEnc 0) := by decide
theorem test_decode_g7p_dec : decodeAt 16 0b000000000000000000010001#24 = .ok (.g7pDec 0) := by decide
theorem test_decode_g7p_ssplit : decodeAt 16 0b000000001000011000010010#24 = .ok (.g7pSsplit 134) := by decide
theorem test_decode_g7p_esplit : decodeAt 16 0b000000001000011000010011#24 = .ok (.g7pEsplit 134) := by decide
theorem test_decode_g7p_dcode : decodeAt 16 0b000000000000000000010100#24 = .ok (.g7pDcode 0) := by decide
theorem test_decode_ucs2_enc : decodeAt 16 0b000000000000000000100000#24 = .ok (.ucs2Enc 0) := by decide
theorem test_decode_ucs2_dec : decodeAt 16 0b000000000000000000100001#24 = .ok (.ucs2Dec 0) := by decide
theorem test_decode_ucs2_ssplit : decodeAt 16 0b000000000000100100100010#24 = .ok (.ucs2Ssplit 9) := by decide
theorem test_decode_ucs2_esplit : decodeAt 16 0b000000000110101100100011#24 = .ok (.ucs2Esplit 107) := by decide
theorem test_decode_ucs2_dcode : decodeAt 16 0b111111111111111100100100#24 = .ok (.ucs2Dcode 0xFFFF) := by decide

/-- The reserved words of V-X2. -/
theorem test_decode_reserved :
    decodeAt 16 0x000005#24 = .error (.op 5#4) ∧ decodeAt 16 0x00000F#24 = .error (.op 15#4) ∧
    decodeAt 16 0x000015#24 = .error (.op 5#4) ∧ decodeAt 16 0x000025#24 = .error (.op 5#4) ∧
    decodeAt 16 0x000030#24 = .error (.codec 3#4) ∧ decodeAt 16 0x0000FF#24 = .error (.codec 15#4) ∧
    decodeAt 16 0x123480#24 = .error (.codec 8#4) := by decide

/-- Of the 256 opcode bytes exactly 15 are commands (V-X3). -/
theorem test_decode_fifteen_opcodes :
    ((List.range 256).filter (fun n => (decodeTableWord 8 n).isSome)).length = 15 := by decide

theorem test_encode_word : encodeAt 16 (.g7pEsplit 134) = 0x008613#24 ∧ encodeAt 16 (.ucs2Dcode 0xFFFF) = 0xFFFF24#24 := by
  decide

theorem test_decode_table_word : decodeTableWord 8 0x13 = some (.g7pEsplit 0) ∧ decodeTableWord 8 0x05 = none := by
  decide

/-! ### Commands, at most two vectors each -/

/-- V-U2. -/
theorem test_g7u_enc :
    givesSegments (exec (.g7uEnc 0) (withText [0x61#21, 0x7B#21, 0x62#21])) [[0x61#8, 0x1B#8, 0x28#8, 0x62#8]]
      = true := by decide

/-- V-U1 and V-U4: the empty text gives one empty segment; an unencodable character leaves nothing. -/
theorem test_g7u_enc_edges :
    givesSegments (exec (.g7uEnc 0) State.reset) [[]] = true ∧
    answers (exec (.g7uEnc 0) (withText [0x61#21, 0x60#21]))
      (fun t => decide (t.status = 0xC1#8 ∧ t.segCnt = 0)) = true := by decide

/-- V-U6. -/
theorem test_g7u_dec :
    givesText (exec (.g7uDec 0) (withOctets [0x61#8, 0x1B#8, 0x65#8, 0x62#8])) [0x61#21, 0x20AC#21, 0x62#21]
      = true := by decide

/-- V-T8: orphan escapes, escapes of codes with no entry, octets above 0x7F. -/
theorem test_g7u_dec_malformed :
    ∀ b ∈ [[0x61#8, 0x1B#8], [0x1B#8], [0x1B#8, 0x1B#8], [0x1B#8, 0x41#8], [0x1B#8, 0x0D#8], [0x80#8],
        [0x61#8, 0xE1#8]],
      givesStatus (exec (.g7uDec 0) (withOctets b)) 0xC2#8 = true := by decide

/-- V-U9. -/
theorem test_g7u_ssplit :
    givesResult (exec (.g7uSsplit 5) (withText abBraceCd)) 0x01#8 = true ∧
    givesResult (exec (.g7uSsplit 6) (withText abBraceCd)) 0x00#8 = true := by decide

/-- V-U12 and V-U13. -/
theorem test_g7u_esplit :
    givesSegments (exec (.g7uEsplit 3) (withText abBraceCd))
      [[0x61#8, 0x62#8], [0x1B#8, 0x28#8, 0x63#8], [0x64#8]] = true ∧
    givesSegments (exec (.g7uEsplit 2) (withText abBraceCd))
      [[0x61#8, 0x62#8], [0x1B#8, 0x28#8], [0x63#8, 0x64#8]] = true := by decide

/-- V-U14 and V-X4. -/
theorem test_g7u_esplit_errors :
    answers (exec (.g7uEsplit 1) (withText abBraceCd))
      (fun t => decide (t.status = 0xC3#8 ∧ t.segCnt = 0)) = true ∧
    givesStatus (exec (.g7uEsplit 1) (withText [0x7B#21, 0x60#21])) 0xC1#8 = true := by decide

/-- V-D1. -/
theorem test_g7u_dcode : givesResult (exec (.g7uDcode 0) State.reset) 0x00#8 = true := by decide

/-- The segment of V-P9 before its filler: ENC packs with zero bits. -/
theorem test_g7p_enc :
    givesSegments (exec (.g7pEnc 0) (withText sevenLetters))
      [[0x61#8, 0xF1#8, 0x98#8, 0x5C#8, 0x36#8, 0x9F#8, 0x01#8]] = true := by decide

/-- V-P24: `"hello"`. -/
theorem test_g7p_dec :
    givesText (exec (.g7pDec 0) (withOctets [0xE8#8, 0x32#8, 0x9B#8, 0xFD#8, 0x06#8]))
      [0x68#21, 0x65#21, 0x6C#21, 0x6C#21, 0x6F#21] = true := by decide

/-- V-P24: the spare bit of `E1` is ignored; `61 62` is "aD". -/
theorem test_g7p_dec_spare_bits :
    givesText (exec (.g7pDec 0) (withOctets [0xE1#8])) [0x61#21] = true ∧
    givesText (exec (.g7pDec 0) (withOctets [0x61#8, 0x62#8])) [0x61#21, 0x44#21] = true := by decide

/-- V-P23. -/
theorem test_g7p_ssplit :
    givesResult (exec (.g7pSsplit 7) (withText (List.replicate 8 0x61#21))) 0x00#8 = true ∧
    givesResult (exec (.g7pSsplit 7) (withText (List.replicate 9 0x61#21))) 0x01#8 = true := by decide

/-- V-P11: the early close before the pair leaves seven septets, and the filler. -/
theorem test_g7p_esplit :
    givesSegments (exec (.g7pEsplit 7) (withText (sevenLetters ++ [0x7B#21, 0x68#21])))
      [[0x61#8, 0xF1#8, 0x98#8, 0x5C#8, 0x36#8, 0x9F#8, 0x1B#8], [0x1B#8, 0x14#8, 0x1A#8]] = true := by decide

/-- V-P15. -/
theorem test_g7p_esplit_edges :
    givesStatus (exec (.g7pEsplit 1) (withText [0x7B#21])) 0xC3#8 = true ∧
    givesSegments (exec (.g7pEsplit 0) State.reset) [] = true := by decide

/-- V-D2. -/
theorem test_g7p_dcode : givesResult (exec (.g7pDcode 0) State.reset) 0x00#8 = true := by decide

/-- V-C4. -/
theorem test_ucs2_enc :
    givesSegments (exec (.ucs2Enc 0) (withText pairText))
      [[0x00#8, 0x61#8, 0x00#8, 0x62#8, 0xD8#8, 0x3D#8, 0xDE#8, 0x00#8, 0x00#8, 0x63#8]] = true := by decide

/-- V-C5. -/
theorem test_ucs2_enc_unencodable :
    [0xD800#21, 0xDFFF#21, 0x110000#21, 0x1FFFFF#21].all
      (fun cp => givesStatus (exec (.ucs2Enc 0) (withText [cp])) 0xC1#8) = true := by decide

/-- V-C7 and V-C14. -/
theorem test_ucs2_dec :
    givesText (exec (.ucs2Dec 0) (withOctets [0xDB#8, 0xFF#8, 0xDF#8, 0xFF#8])) [0x10FFFF#21] = true ∧
    givesText (exec (.ucs2Dec 0) (withOctets [0xFE#8, 0xFF#8, 0x00#8, 0x61#8])) [0xFEFF#21, 0x61#21] = true := by
  decide

/-- V-C8 and V-C9. -/
theorem test_ucs2_dec_malformed :
    ∀ b ∈ [[0x00#8], [0x00#8, 0x61#8, 0x00#8], [0xD8#8, 0x3D#8], [0xD8#8, 0x3D#8, 0x00#8, 0x61#8],
        [0xD8#8, 0x3D#8, 0xD8#8, 0x3D#8], [0xDE#8, 0x00#8, 0x00#8, 0x61#8]],
      givesStatus (exec (.ucs2Dec 0) (withOctets b)) 0xC2#8 = true := by decide

/-- V-C10. -/
theorem test_ucs2_ssplit :
    givesResult (exec (.ucs2Ssplit 9) (withText pairText)) 0x01#8 = true ∧
    givesResult (exec (.ucs2Ssplit 10) (withText pairText)) 0x00#8 = true := by decide

/-- V-S5a. -/
theorem test_ucs2_esplit :
    givesSegments (exec (.ucs2Esplit 6) (withText pairText))
      [[0x00#8, 0x61#8, 0x00#8, 0x62#8], [0xD8#8, 0x3D#8, 0xDE#8, 0x00#8, 0x00#8, 0x63#8]] = true := by decide

/-- V-X5 and V-C12. -/
theorem test_ucs2_esplit_errors :
    givesStatus (exec (.ucs2Esplit 2) (withText [0x1F600#21, 0xD800#21])) 0xC1#8 = true ∧
    givesStatus (exec (.ucs2Esplit 2) (withText [0x1F600#21])) 0xC3#8 = true := by decide

/-- V-D3. -/
theorem test_ucs2_dcode : givesResult (exec (.ucs2Dcode 0xFFFF) State.reset) 0x08#8 = true := by decide

/-! ### Steps -/

/-- V-X2: a reserved opcode, whatever the buffers hold. -/
theorem test_step_reserved :
    answers (step (offerCommand ⟨16, 0x000030#24⟩ (withText [0x61#21])))
      (fun t => decide (t.status = 0xC4#8 ∧ t.segCnt = 0 ∧ t.tinLen = 1)) = true := by decide

/-- V-X7: a command issued at once after reset. -/
theorem test_step_first_command :
    answers (step (State.reset.withFetchWord 8 0x00)) (fun t => decide (t.segLen = [0] ∧ t.pending = [])) = true := by
  decide

/-- V-U9 through `SEND` (R78): six septets go out whole at limit 6 and in three segments at limit 3. -/
theorem test_send :
    givesSegments (send .g7u 6 (withText abBraceCd)) [[0x61#8, 0x62#8, 0x1B#8, 0x28#8, 0x63#8, 0x64#8]] = true ∧
    answers (send .g7u 3 (withText abBraceCd)) (fun t => decide (t.segCnt = 3)) = true := by decide

/-! ### A witness for every obligation that has hypotheses

Each theorem `witness_<Name>` shows inputs that meet the hypotheses of `Obligations.<Name>`, every clause of
it, at a boundary of the clause where it has one. -/

theorem witness_DecodeAndEncodeAgree :
    (Instr.g7pEsplit 0xFFFF).wfAt 16 = true ∧ (Instr.ucs2Dcode 1).wfAt 1 = true ∧ (Instr.g7uEnc 0).wfAt 0 = true ∧
    decodeAt 16 0xFFFF13#24 = .ok (.g7pEsplit 0xFFFF) ∧ decodeAt 1 0x124#9 = .ok (.ucs2Dcode 1) := by decide

theorem witness_DecoderFollowsMaskAndMatch :
    (⟨"UCS2.DCODE", 0xFF#8, 0x24#8, .ucs2, .dcode⟩ : OpcodeRow).matches (lw := 16) 0xFFFF24#24 = true ∧
    (⟨"UCS2.DCODE", 0xFF#8, 0x24#8, .ucs2, .dcode⟩ : OpcodeRow).matches (lw := 16) 0xFFFF25#24 = false := by decide

theorem witness_ReservedOpcodeRaisesIllegalCommand :
    (withActions [.command ⟨16, 0xFFFF05#24⟩]).pending = .command ⟨16, 0xFFFF05#24⟩ :: [] ∧
    (∀ b ∈ [0x05#8, 0x0F#8, 0x24#8 + 1#8, 0x30#8, 0xFF#8], ∀ r ∈ opcodeTable, b ≠ r.pattern) ∧
    (∀ r ∈ opcodeTable, opcodeField (lw := 16) 0xFFFF05#24 ≠ r.pattern) := by decide

theorem witness_StepTakesTheHostsNextAction :
    ((withActions [.command ⟨16, 0xFFFF24#24⟩]).pending = .command ⟨16, 0xFFFF24#24⟩ :: [] ∧
      decode ⟨16, 0xFFFF24#24⟩ = .ok (.ucs2Dcode 0xFFFF)) ∧
    (withActions [.move .reset]).pending = .move .reset :: [] ∧
    State.reset.pending = [] := by decide

/-- A word whose opcode byte selects a command: the hypothesis of `opcodeSelects`, in every command statement. -/
theorem witness_opcodeSelects :
    opcodeField (lw := 16) 0xFFFF00#24 = 0x00#8 ∧ opcodeField (lw := 1) 0x124#9 = 0x24#8 := by decide

theorem witness_G7uEncWritesOneUnpackedSegment :
    encodeSeptets (textOperand State.reset) = .ok [] ∧
    encodeSeptets (textOperand (withText [0x7B#21])) = .ok [0x1B#7, 0x28#7] ∧
    encodeSeptets (textOperand (withText [0x61#21, 0x60#21])) = .error .unencodableCharacter := by decide

theorem witness_G7uDecResolvesEscapes :
    decodeSeptets (byteOperand State.reset) = .ok [] ∧
    decodeSeptets (byteOperand (withOctets [0x7F#8, 0x1B#8, 0x65#8])) = .ok [0xE0#21, 0x20AC#21] ∧
    decodeSeptets (byteOperand (withOctets [0x80#8])) = .error .malformedInput := by decide

theorem witness_G7uSsplitComparesSeptetCount :
    septetCount (textOperand State.reset) = .ok 0 ∧
    septetCount (textOperand (withText abBraceCd)) = .ok 6 ∧
    septetCount (textOperand (withText [0x60#21])) = .error .unencodableCharacter := by decide

theorem witness_G7uEsplitSegmentsUnpacked :
    units7 (textOperand (withText [0x60#21])) = .error .unencodableCharacter ∧
    (units7 (textOperand (withText [0x7B#21])) = .ok [[0x1B#7, 0x28#7]] ∧
      (∃ u ∈ [[0x1B#7, 0x28#7]], 1 < u.length) ∧ (∀ u ∈ [[0x1B#7, 0x28#7]], u.length ≤ 2)) ∧
    units7 (textOperand State.reset) = .ok [] := by decide

theorem witness_G7pEncPacksWithoutFiller :
    encodeSeptets (textOperand (withText sevenLetters))
      = .ok [0x61#7, 0x62#7, 0x63#7, 0x64#7, 0x65#7, 0x66#7, 0x67#7] ∧
    encodeSeptets (textOperand (withText [0x60#21])) = .error .unencodableCharacter := by decide

theorem witness_G7pDecUnpacksThenDecodes :
    decodeSeptets ((unpack (byteOperand (withOctets [0xE1#8]))).map (fun c => (0#1 ++ c : BitVec 8)))
      = .ok [0x61#21] ∧
    decodeSeptets ((unpack (byteOperand (withOctets [0x1B#8]))).map (fun c => (0#1 ++ c : BitVec 8)))
      = .error .malformedInput := by decide

theorem witness_G7pSsplitComparesPackedLength :
    septetCount (textOperand (withText sevenLetters)) = .ok 7 ∧
    septetCount (textOperand (withText [0x60#21])) = .error .unencodableCharacter := by decide

theorem witness_G7pEsplitSegmentsPackedAndFilled :
    units7 (textOperand (withText [0x60#21])) = .error .unencodableCharacter ∧
    units7 (textOperand (withText [0x7B#21])) = .ok [[0x1B#7, 0x28#7]] ∧
    (∃ u ∈ [[0x1B#7, 0x28#7]], 1 < packedLen u.length) ∧ (∀ u ∈ [[0x1B#7, 0x28#7]], packedLen u.length ≤ 2) := by
  decide

theorem witness_Ucs2EncWritesBigEndianUnits :
    encodeU (textOperand (withText [0xFFFF#21])) = .ok [0xFF#8, 0xFF#8] ∧
    encodeU (textOperand (withText [0x10000#21])) = .ok [0xD8#8, 0x00#8, 0xDC#8, 0x00#8] ∧
    encodeU (textOperand (withText [0xD800#21])) = .error .unencodableCharacter := by decide

theorem witness_Ucs2DecReadsBigEndianUnits :
    decodeU (byteOperand State.reset) = .ok [] ∧
    decodeU (byteOperand (withOctets [0xD8#8, 0x00#8, 0xDC#8, 0x00#8])) = .ok [0x10000#21] ∧
    decodeU (byteOperand (withOctets [0x00#8])) = .error .malformedInput := by decide

theorem witness_Ucs2SsplitComparesByteLength :
    byteLen (textOperand (withText pairText)) = .ok 10 ∧
    byteLen (textOperand (withText [0x110000#21])) = .error .unencodableCharacter := by decide

theorem witness_Ucs2EsplitSegmentsWholeUnits :
    unitsU (textOperand (withText [0xDFFF#21])) = .error .unencodableCharacter ∧
    unitsU (textOperand (withText [0x61#21])) = .ok [[0x00#8, 0x61#8]] ∧
    (∃ u ∈ [[0x00#8, 0x61#8]], 1 < u.length) ∧ (∀ u ∈ [[0x00#8, 0x61#8]], u.length ≤ 2) := by decide

theorem witness_AlphabetTablesHaveTheirProperties :
    (basicDec 0x61#7 = basicDec 0x61#7 ∧ 0x61#7 ≠ 0x1B#7) ∧
    extDec 0x65#7 = some 0x20AC#21 ∧
    basicDec 0x7F#7 = some 0xE0#21 := by decide

theorem witness_UnitLookupFollowsTheTables :
    unit7 0xE0#21 = .ok [0x7F#7] ∧ unit7 0x20AC#21 = .ok [0x1B#7, 0x65#7] ∧
    unit7 0x60#21 = .error .unencodableCharacter := by decide

theorem witness_SeptetsOfATextAreItsUnitsInOrder :
    (units7 [0x7B#21] = .ok [[0x1B#7, 0x28#7]] ∧ ([0x7B#21] : Text)[0]? = some 0x7B#21) ∧
    ((∀ x ∈ ([0x61#21] : Text), ∃ u, unit7 x = .ok u) ∧ unit7 0x60#21 = .error .unencodableCharacter) ∧
    septetCount [0x61#21, 0x7B#21] = .ok 3 :=
  ⟨by decide, ⟨by simpa using ⟨[0x61#7], by decide⟩, by decide⟩, by decide⟩

theorem witness_SeptetDecodeInvertsEncode :
    decodeSeptets [0x61#8, 0x1B#8, 0x28#8] = .ok [0x61#21, 0x7B#21] ∧
    encodeSeptets [0x61#21, 0x7B#21] = .ok [0x61#7, 0x1B#7, 0x28#7] := by decide

theorem witness_MalformedSeptetsAreRejected :
    decodeSeptets [0x61#8, 0x1B#8] = .error .malformedInput ∧
    encodeSeptets [0x61#21] = .ok [0x61#7] ∧
    (∃ b ∈ [0x61#8, 0x80#8], 0x7F < b.toNat) ∧
    extDec 0x1B#7 = none ∧ extDec 0x0D#7 = none := by decide

theorem witness_PackPlacesEveryBit :
    ([0x61#7, 0x31#7] : List Septet)[1]? = some 0x31#7 ∧ 6 < 7 ∧
    7 * ([0x61#7, 0x31#7] : List Septet).length ≤ 14 ∧
    (pack [0x61#7, 0x31#7])[14 / 8]? = some 0x18#8 := by decide

theorem witness_UnpackReadsEveryWholeSeptet :
    (unpack [0x61#8, 0x31#8])[1]? = some 0x62#7 ∧ 6 < 7 ∧
    (∀ b < 8 - 8 * (([] : List Octet).length + 1) % 7, (0x61#8).getLsbD b = (0xE1#8).getLsbD b) := by decide

theorem witness_PackedSizesAndFiller : 7 ≤ 8 ∧ fill 7 = 1 ∧ fill 8 = 0 ∧ packedLen 7 = 7 := by decide

theorem witness_Ucs2UnitOfEachCharacter :
    (0xD7FF#21).toNat ≤ 0xD7FF ∧ (0xE000 ≤ (0xE000#21).toNat ∧ (0xFFFF#21).toNat ≤ 0xFFFF) ∧
    (0x10000 ≤ (0x10000#21).toNat ∧ (0x10FFFF#21).toNat ≤ 0x10FFFF) ∧
    (¬ scalarValue 0xD800#21 ∧ ¬ scalarValue 0xDFFF#21 ∧ ¬ scalarValue 0x110000#21) := by decide

theorem witness_Ucs2DecodeInvertsEncode :
    decodeU [0xDB#8, 0xFF#8, 0xDF#8, 0xFF#8] = .ok [0x10FFFF#21] ∧
    encodeU [0x10FFFF#21] = .ok [0xDB#8, 0xFF#8, 0xDF#8, 0xFF#8] := by decide

theorem witness_SegmentKeepsWholeUnitsWithinTheLimit :
    segment (fun n => n) (fun n => decide (n ≤ 3)) [1, 2, 2] = .ok [[1, 2], [2]] ∧
    ([[1, 2], [2]] : List (List Nat))[0]? = some [1, 2] ∧ ([[1, 2], [2]] : List (List Nat))[0 + 1]? = some [2] := by
  decide

/-- Both sides of each equivalence hold on these and fail one limit higher. -/
theorem witness_SegmentLimitTooSmallConditions :
    givesStatus (exec (.g7uEsplit 0) (withText [0x61#21])) 0xC3#8 = true ∧
    givesStatus (exec (.g7pEsplit 1) (withText [0x7B#21])) 0xC3#8 = true ∧
    givesStatus (exec (.g7pEsplit 2) (withText [0x7B#21])) 0x80#8 = true ∧
    givesStatus (exec (.ucs2Esplit 3) (withText [0x10000#21])) 0xC3#8 = true ∧
    givesStatus (exec (.ucs2Esplit 4) (withText [0x10000#21])) 0x80#8 = true := by decide

theorem witness_UnencodableComesBeforeLimitTooSmall :
    givesStatus (exec (Instr.of .g7u .esplit 1) (withText [0x7B#21, 0x60#21])) 0xC1#8 = true ∧
    givesStatus (exec (Instr.of .g7u .esplit 1) (withText [0x7B#21])) 0xC3#8 = true ∧
    givesStatus (exec (Instr.of .g7u .esplit 2) (withText [0x7B#21])) 0x80#8 = true := by decide

theorem witness_SsplitTellsWhetherEncExceedsTheLimit :
    givesStatus (exec (Instr.of .g7p .ssplit 6) (withText sevenLetters)) 0x80#8 = true := by decide

/-- `RESULT` 0 with a filled segment at limit 7, and `RESULT` 1 with two segments at limit 6. -/
theorem witness_SsplitAndEsplitAgree :
    givesResult (exec (Instr.of .g7p .ssplit 7) (withText sevenLetters)) 0x00#8 = true ∧
    givesSegments (exec (Instr.of .g7p .esplit 7) (withText sevenLetters))
      [[0x61#8, 0xF1#8, 0x98#8, 0x5C#8, 0x36#8, 0x9F#8, 0x1B#8]] = true ∧
    givesStatus (exec (Instr.of .g7p .enc 0) (withText sevenLetters)) 0x80#8 = true ∧
    septetCount (textOperand (withText sevenLetters)) = .ok 7 ∧ textOperand (withText sevenLetters) ≠ [] ∧
    givesResult (exec (Instr.of .g7p .ssplit 6) (withText sevenLetters)) 0x01#8 = true ∧
    answers (exec (Instr.of .g7p .esplit 6) (withText sevenLetters))
      (fun t => decide (t.status = 0x80#8 ∧ t.bout.length = 2)) = true := by decide

theorem witness_DecReturnsWhatEncEncoded :
    textOperand (withText [0x7B#21]) = [0x7B#21] ∧ inExtension 0x7B#21 ∧ inBasic 0x61#21 ∧
    byteOperand (withOctets [0x1B#8, 0x28#8]) = [0x1B#8, 0x28#8] ∧ scalarValue 0x10FFFF#21 :=
  ⟨by decide, ⟨0x28#7, by decide⟩, ⟨0x61#7, by decide⟩, by decide, by decide⟩

theorem witness_G7uSegmentsReassemble :
    givesStatus (exec (.g7uEsplit 3) (withText abBraceCd)) 0x80#8 = true ∧
    answers (exec (.g7uEnc 0) (withText abBraceCd)) (fun _ => true) = true ∧
    byteOperand (withOctets [0x61#8, 0x62#8]) = [0x61#8, 0x62#8] := by decide

theorem witness_G7pDecReturnsWhatG7pEncEncoded :
    givesSegments (exec (.g7pEnc 0) (withText [0x61#21])) [[0x61#8]] = true ∧
    septetCount (textOperand (withText [0x61#21])) = .ok 1 ∧
    byteOperand (withOctets [0x61#8]) = [0x61#8] ∧
    givesSegments (exec (.g7pEnc 0) (withText sevenLetters))
      [[0x61#8, 0xF1#8, 0x98#8, 0x5C#8, 0x36#8, 0x9F#8, 0x01#8]] = true ∧
    septetCount (textOperand (withText sevenLetters)) = .ok 7 := by decide

theorem witness_G7pSegmentsReassemble :
    givesSegments (exec (.g7pEsplit 2) (withText [0x61#21, 0x7B#21])) [[0x61#8], [0x1B#8, 0x14#8]] = true ∧
    givesStatus (exec (.g7pEsplit 7) (withText sevenLetters)) 0x80#8 = true := by decide

theorem witness_Ucs2SegmentsReassemble :
    givesStatus (exec (.ucs2Esplit 6) (withText pairText)) 0x80#8 = true ∧
    answers (exec (.ucs2Enc 0) (withText pairText)) (fun _ => true) = true := by decide

theorem witness_OutputsAndErrorsOfEachOperation :
    givesStatus (exec (.g7uEnc 0) State.reset) 0x80#8 = true ∧ (Instr.g7uEnc 0).op = .enc ∧
    answers (exec (.g7uEsplit 0) State.reset) (fun _ => true) = true ∧ (Instr.g7uEsplit 0).op = .esplit ∧
    answers (exec (.ucs2Dcode 0) State.reset) (fun _ => true) = true ∧ (Instr.ucs2Dcode 0).op ≠ .enc ∧
    (Instr.ucs2Dcode 0).op ≠ .esplit ∧ (Instr.ucs2Dcode 0).op ≠ .dec := by decide

/-- Two states of different outputs and the same operands. -/
theorem witness_OutputsDependOnOperandsAlone :
    textOperand (withText [0x61#21]) = textOperand { withText [0x61#21] with status := 0xC4#8 } ∧
    byteOperand (withText [0x61#21]) = byteOperand { withText [0x61#21] with status := 0xC4#8 } := by decide

theorem witness_ErrorLeavesNoPartialOutput :
    answers (exec (.g7uEnc 0) (withText [0x61#21, 0x60#21])) (fun t => statusErr t.status) = true ∧
    decode ⟨16, 0xFFFF05#24⟩ = .error (.op 5#4) := by decide

theorem witness_ResultRegisterIsWrittenByEveryCommand :
    answers (exec (.g7uSsplit 0) (withText [0x61#21])) (fun _ => true) = true ∧ (Instr.g7uSsplit 0).op = .ssplit ∧
    answers (exec (.ucs2Dcode 0) State.reset) (fun _ => true) = true ∧ (Instr.ucs2Dcode 0).op = .dcode ∧
    answers (exec (.g7uDec 0) (withOctets [0x80#8])) (fun t => statusErr t.status) = true ∧
    (Instr.g7uDec 0).op ≠ .ssplit ∧ (Instr.g7uDec 0).op ≠ .dcode ∧
    answers (issue ⟨16, 0x000030#24⟩ State.reset) (fun t => statusErr t.status) = true := by decide

theorem witness_StatusRegisterFields :
    (withActions [.command ⟨16, 0x000030#24⟩]).pending = .command ⟨16, 0x000030#24⟩ :: [] ∧
    answers (step (withActions [.command ⟨16, 0x000030#24⟩])) (fun _ => true) = true ∧
    HostMove.read .status ≠ .reset ∧
    answers (hostMove (.read .status) State.reset) (fun _ => true) = true := by decide

theorem witness_ReissuedCommandGivesTheSameState :
    answers (exec (.g7uEnc 0) (withText [0x61#21])) (fun _ => true) = true ∧
    answers (exec (.g7uDec 0) (withText [0x61#21])) (fun _ => true) = true := by decide

/-- The first and the last index of an operand and the first past it. -/
theorem witness_OperandsAreTheElementsBelowTheLength :
    (textOperand (withText sevenLetters))[0]? = some 0x61#21 ∧
    (textOperand (withText sevenLetters))[6]? = some 0x67#21 ∧
    (textOperand (withText sevenLetters))[7]? = none := by decide

/-- The first index past each capacity has no transition. -/
theorem witness_ElementWriteChangesOneElement :
    hostMove (.writeTin Config.tMax 0x61#21) State.reset = .refused .beyondTextCapacity ∧
    hostMove (.writeBin Config.bMax 0x61#8) State.reset = .refused .beyondByteCapacity := by
  simp [hostMove]

/-- The empty operand is within every capacity, and one element more than the capacity is not. -/
theorem witness_LoadedOperandIsRead :
    ([] : Text).length ≤ Config.tMax ∧ ¬ (List.replicate (Config.tMax + 1) 0x61#21).length ≤ Config.tMax ∧
    ([] : List Octet).length ≤ Config.bMax ∧
    ¬ (List.replicate (Config.bMax + 1) 0x61#8).length ≤ Config.bMax := by simp

/-- Lengths 0 and the capacity are taken, one more is not; a stored element lies below a new length. -/
theorem witness_LengthWriteKeepsTheStoredElementsBelow :
    (0 ≤ Config.tMax ∧ Config.tMax ≤ Config.tMax ∧ ¬ Config.tMax + 1 ≤ Config.tMax) ∧
    Memory.lookup (withText [0x61#21]).tin 0 = some 0x61#21 ∧
    Memory.lookup (withOctets [0x61#8]).bin 0 = some 0x61#8 := by
  refine ⟨by omega, by decide, by decide⟩

/-- A state that the invariant holds of: after ENC of an empty text, with a command waiting. -/
def afterEmptyEnc : State := commandEnd [[]] [] 0x00#8 0x80#8 (withActions [.command ⟨16, 0xFFFF24#24⟩])

theorem afterEmptyEnc_inv : Inv afterEmptyEnc where
  tinWf := by decide
  binWf := by decide
  tinCapacity := by simp [afterEmptyEnc, commandEnd, withActions, State.reset]
  binCapacity := by simp [afterEmptyEnc, commandEnd, withActions, State.reset]
  tinLenCapacity := Nat.zero_le _
  binLenCapacity := Nat.zero_le _
  segCntAgrees := by decide
  segLenAgrees := by decide
  tLenAgrees := by decide
  statusLegal := by decide
  resultLegal := by decide
  emptyUnlessOk := by decide
  oneOutput := by decide
  segmentCapacity := Nat.le_max_left _ _
  octetCapacity := Nat.zero_le _
  textCapacity := Nat.zero_le _
  textScalar := by simp [afterEmptyEnc, commandEnd]
  onePortWidth := ⟨16, by decide, by simp [afterEmptyEnc, commandEnd, withActions]⟩

theorem witness_HostReadsHaveNoEffect :
    Inv afterEmptyEnc ∧ hostRead (.segLen 0) afterEmptyEnc = some 0 ∧ hostRead (.segLen 1) afterEmptyEnc = none ∧
    hostRead (.bout 0 0) afterEmptyEnc = none := ⟨afterEmptyEnc_inv, by decide⟩

theorem witness_SendLeavesSegmentsWithinTheLimit :
    answers (exec (Instr.of .g7u .ssplit 5) (withText [0x60#21])) (fun t => statusErr t.status) = true ∧
    givesResult (exec (Instr.of .g7u .ssplit 5) (withText abBraceCd)) 0x01#8 = true ∧
    givesResult (exec (Instr.of .g7u .ssplit 6) (withText abBraceCd)) 0x00#8 = true ∧
    statusErr 0x80#8 = false := by decide

theorem witness_InstancesDoNotDisturbEachOther :
    (match systemStep [withActions [.command ⟨16, 0x000030#24⟩], State.reset] 0 with
      | .next sys => decide (sys.map State.status = [0xC4#8, 0x00#8])
      | .fault _ => false
      | .refused _ => false) = true := by decide

theorem witness_EveryStepKeepsTheInvariant :
    Inv afterEmptyEnc ∧ givesResult (step afterEmptyEnc) 0x08#8 = true := ⟨afterEmptyEnc_inv, by decide⟩

/-- The least and a wider width; the largest limit of the least. -/
theorem witness_LimitWidthOnlyBoundsTheLimit :
    (opcodeField (lw := 1) 0x113#9 = opcodeField (lw := 16) 0x000113#24 ∧
      limitField (lw := 1) 0x113#9 = limitField (lw := 16) 0x000113#24) ∧
    (Instr.g7pEsplit 1).wfAt 1 = true ∧ (Instr.g7pEsplit 2).wfAt 1 = false := by decide

/-- A step at a port of width 1 (R4). -/
theorem test_step_narrow_port :
    answers (step (offerCommand ⟨1, 0x103#9⟩ (withText [0x61#21, 0x62#21])))
      (fun t => decide (t.bout = [[0x61#8], [0x62#8]])) = true := by decide

end Sys2Proof.Tests
end

/-! PROOFS. A step takes the host's next action, the blocks of a system keep apart, and `LW` only bounds the
limit (00_scope.md). -/

namespace Sys2Proof.Machine

/-! ### What a step does, by the host's next action (R9) -/

theorem step_of_pending_nil {s : State} (h : s.pending = []) : step s = .next s := by
  simp [step, nextAction, h]

theorem step_of_pending_command {s : State} {cw : CommandWord} {rest : List HostAction}
    (h : s.pending = .command cw :: rest) : step s = issue cw { s with pending := rest } := by
  simp [step, nextAction, h]

theorem step_of_pending_move {s : State} {m : HostMove} {rest : List HostAction}
    (h : s.pending = .move m :: rest) : step s = hostMove m { s with pending := rest } := by
  simp [step, nextAction, h]

/-- A word that decodes runs as the command it decodes to (R73). -/
theorem issue_of_decode {cw : CommandWord} {i : Instr} (h : decode cw = .ok i) (s : State) :
    issue cw s = exec i s := by
  simp [issue, h]

/-- Settles O5, from the equation of each kind of action. -/
theorem stepTakesTheHostsNextAction : Obligations.StepTakesTheHostsNextAction := by
  refine ⟨fun s cw rest i hp hd => ?_, fun s m rest hp => step_of_pending_move hp,
    fun s hp => step_of_pending_nil hp⟩
  rw [step_of_pending_command hp, issue_of_decode hd]

/-! ### Several blocks (R10) -/

/-- What a step of block `k` can do: nothing when there is no such block, or put the state that the block's
own step answers in its place. -/
theorem systemStep_next {sys sys' : List State} {k : Nat} (h : systemStep sys k = .next sys') :
    (sys[k]? = none ∧ sys' = sys) ∨
    (∃ s t, sys[k]? = some s ∧ step s = .next t ∧ sys' = sys.set k t) := by
  unfold systemStep at h
  split at h
  next hk => exact .inl ⟨hk, by simpa using h.symm⟩
  next s hk =>
    split at h
    next t ht => exact .inr ⟨s, t, hk, ht, by simpa using h.symm⟩
    all_goals cases h

/-- Settles O57, by what a step of the system can do. -/
theorem instancesDoNotDisturbEachOther : Obligations.InstancesDoNotDisturbEachOther := by
  intro sys sys' k h
  obtain ⟨hk, rfl⟩ | ⟨s, t, hk, ht, rfl⟩ := systemStep_next h
  · simp [hk]
  · have hlt : k < sys.length := (List.getElem?_eq_some_iff.mp hk).1
    refine ⟨List.length_set, fun j hj => List.getElem?_set_ne (Ne.symm hj), fun s' hs' => ?_⟩
    obtain rfl : s = s' := Option.some.inj (hk.symm.trans hs')
    exact ⟨t, ht, List.getElem?_set_self hlt⟩

/-! ### The fields of a command word (R70) -/

/-- The CODEC nibble is the high nibble of the opcode byte, at every width. -/
theorem codecField_eq_opcodeField {lw : Nat} (cw : BitVec (lw + 8)) :
    codecField cw = (opcodeField cw).extractLsb' 4 4 := by
  ext b hb
  simp [codecField, opcodeField]

/-- The OP nibble is the low nibble of the opcode byte, at every width. -/
theorem opField_eq_opcodeField {lw : Nat} (cw : BitVec (lw + 8)) :
    opField cw = (opcodeField cw).extractLsb' 0 4 := by
  ext b hb
  simp [opField, opcodeField]

/-- Decoding reads the opcode byte and the limit, and nothing else of the word or its width (R70, R75). -/
theorem decode_congr {cw cw' : CommandWord} (hopc : opcodeField cw.bits = opcodeField cw'.bits)
    (hlim : limitField cw.bits = limitField cw'.bits) : decode cw = decode cw' := by
  simp only [decode, decodeAt, codecField_eq_opcodeField, opField_eq_opcodeField, hopc, hlim]

@[simp] theorem opcodeField_encodeAt (lw : Nat) (i : Instr) :
    opcodeField (encodeAt lw i) = opcodeOf i := by
  ext b hb
  simp [opcodeField, encodeAt, BitVec.getLsbD_append, hb]

/-- A limit that the width expresses is read back from the word (R70). -/
theorem limitField_encodeAt {lw : Nat} {i : Instr} (h : i.wfAt lw = true) :
    limitField (encodeAt lw i) = i.limit := by
  have hlt : i.limit < 2 ^ lw := by simpa [Instr.wfAt] using h
  have hfield : (encodeAt lw i).extractLsb' 8 lw = BitVec.ofNat lw i.limit := by
    ext b hb
    simp [encodeAt, BitVec.getLsbD_append, hb]
  rw [limitField, hfield, BitVec.toNat_ofNat, Nat.mod_eq_of_lt hlt]

@[simp] theorem codecOfField_codecNibble (c : Codec) : codecOfField (codecNibble c) = some c := by
  cases c <;> rfl

@[simp] theorem opOfField_opNibble (o : Op) : opOfField (opNibble o) = some o := by
  cases o <;> rfl

theorem codecField_encodeAt (lw : Nat) (i : Instr) :
    codecField (encodeAt lw i) = codecNibble i.codec := by
  rw [codecField_eq_opcodeField, opcodeField_encodeAt, opcodeOf]
  cases i.codec <;> cases i.op <;> rfl

theorem opField_encodeAt (lw : Nat) (i : Instr) : opField (encodeAt lw i) = opNibble i.op := by
  rw [opField_eq_opcodeField, opcodeField_encodeAt, opcodeOf]
  cases i.codec <;> cases i.op <;> rfl

/-- A command is its codec, its operation and its limit. -/
theorem instrOf_fields (i : Instr) : Instr.of i.codec i.op i.limit = i := by
  cases i <;> rfl

/-- The word of a well-formed command decodes to that command, at every width. -/
theorem decodeAt_encodeAt {lw : Nat} {i : Instr} (h : i.wfAt lw = true) :
    decodeAt lw (encodeAt lw i) = .ok i := by
  simp [decodeAt, codecField_encodeAt, opField_encodeAt, limitField_encodeAt h, instrOf_fields]

/-- The decoder of a port gives a well-formed command back from its word (R70, R75). -/
theorem decode_encode {lw : Nat} {i : Instr} (h : i.wfAt lw = true) : decode (encode lw i) = .ok i :=
  decodeAt_encodeAt h

/-- Settles O60: the decoder reads only the opcode byte and the limit, and undoes the encoder. -/
theorem limitWidthOnlyBoundsTheLimit : Obligations.LimitWidthOnlyBoundsTheLimit := by
  refine ⟨fun cw cw' s hopc hlim => ?_, fun lw i s hwf => issue_of_decode (decode_encode hwf) s⟩
  rw [issue, issue, decode_congr hopc hlim]

end Sys2Proof.Machine

/-! PROOFS. Every step keeps the invariant of the block. First the sizes of what the codecs answer, then what
each operation and each host move does to the invariant, then the step. -/

namespace Sys2Proof.Machine

/-! ### Encoding: the units of a text (R96, R162) -/

theorem lookupAll_length {β : Type} {unit : CodePoint → Except ErrorKind β} {t : Text} {us : List β}
    (h : lookupAll unit t = .ok us) : us.length = t.length :=
  ((lookupAll_ok unit t us).mp h).length_eq.symm

/-- Units of at most `c` elements each make at most `c` elements a character. -/
theorem lookupAll_flatten_length_le {β : Type} {unit : CodePoint → Except ErrorKind (List β)} {c : Nat}
    (hunit : ∀ cp u, unit cp = .ok u → u.length ≤ c) {t : Text} {us : List (List β)}
    (h : lookupAll unit t = .ok us) : us.flatten.length ≤ c * t.length := by
  induction (lookupAll_ok unit t us).mp h with
  | nil => simp
  | @cons cp u t us hu hus ih =>
    have hhead := hunit cp u hu
    have htail := ih ((lookupAll_ok unit t us).mpr hus)
    simp only [List.flatten_cons, List.length_append, List.length_cons, Nat.mul_succ]
    omega

/-- A character is one septet or an escape pair (R93). -/
theorem unit7_length_le (cp : CodePoint) (u : List Septet) (h : unit7 cp = .ok u) : u.length ≤ 2 := by
  unfold unit7 at h
  split at h
  · cases h; simp
  · split at h <;> cases h
    simp

/-- A character is one code unit or a surrogate pair (R162). -/
theorem unitU_length_le (cp : CodePoint) (u : List Octet) (h : unitU cp = .ok u) : u.length ≤ 4 := by
  unfold unitU at h
  split at h
  · cases h; simp [unitOctets]
  · split at h <;> cases h
    simp [unitOctets]

/-! ### The sizes of ENC -/

/-- A result mapped is a result whose value is mapped. -/
theorem exceptMap_ok {ε α β : Type} {f : α → β} {x : Except ε α} {b : β} (h : x.map f = .ok b) :
    ∃ a, x = .ok a ∧ f a = b := by
  cases x with
  | error e => cases h
  | ok a => exact ⟨a, rfl, Except.ok.inj h⟩

theorem encodeSeptets_length_le {t : Text} {S : List Septet} (h : encodeSeptets t = .ok S) :
    S.length ≤ 2 * t.length := by
  obtain ⟨us, hus, rfl⟩ := exceptMap_ok h
  exact lookupAll_flatten_length_le unit7_length_le hus

theorem encodeU_length_le (t : Text) (b : List Octet) (h : encodeU t = .ok b) :
    b.length ≤ 4 * t.length := by
  obtain ⟨us, hus, rfl⟩ := exceptMap_ok h
  exact lookupAll_flatten_length_le unitU_length_le hus

theorem packedLen_le (n : Nat) : packedLen n ≤ n := by
  unfold packedLen ceilDiv
  omega

/-- The filler takes no octet of its own: it stands where the septets leave seven bits free (R135). -/
theorem pack_withFiller_length_le (S : List Septet) : (pack (withFiller S)).length ≤ S.length := by
  simp only [pack_length, withFiller, List.length_append, List.length_replicate, fill, packedLen, ceilDiv]
  split <;> omega

theorem encodeG7u_length_le (t : Text) (b : List Octet)
    (h : (encodeSeptets t).map (List.map septetOctet) = .ok b) : b.length ≤ 4 * t.length := by
  obtain ⟨S, hS, rfl⟩ := exceptMap_ok h
  have hlen := encodeSeptets_length_le hS
  rw [List.length_map]
  omega

theorem encodeG7p_length_le (t : Text) (b : List Octet) (h : (encodeSeptets t).map pack = .ok b) :
    b.length ≤ 4 * t.length := by
  obtain ⟨S, hS, rfl⟩ := exceptMap_ok h
  have hlen := encodeSeptets_length_le hS
  have hpack := packedLen_le S.length
  rw [pack_length]
  omega

/-! ### The sizes of ESPLIT (R181) -/

/-- What the walk can do with one unit: close the segment before it, or add it to the segment. -/
theorem segmentWalk_cons_ok {υ : Type} {cost : υ → Nat} {fits : Nat → Bool} {u : υ} {us g : List υ}
    {segs out : List (List υ)} {cur : Nat} (h : segmentWalk cost fits (u :: us) segs g cur = .ok out) :
    fits (cost u) = true ∧
      ((fits (cur + cost u) = false ∧ segmentWalk cost fits us (segs ++ [g]) [u] (cost u) = .ok out) ∨
        (fits (cur + cost u) = true ∧ segmentWalk cost fits us segs (g ++ [u]) (cur + cost u) = .ok out)) := by
  unfold segmentWalk at h
  split at h
  · cases h
  next hu =>
    refine ⟨by simpa using hu, ?_⟩
    split at h
    next hc => exact .inl ⟨hc, h⟩
    next hc => exact .inr ⟨by simpa using hc, h⟩

/-- The walk drops, adds and reorders no unit. -/
theorem segmentWalk_flatten {υ : Type} {cost : υ → Nat} {fits : Nat → Bool} {U : List υ} :
    ∀ {segs out : List (List υ)} {g : List υ} {cur : Nat},
      segmentWalk cost fits U segs g cur = .ok out → out.flatten = segs.flatten ++ g ++ U := by
  induction U with
  | nil =>
    intro segs out g cur h
    obtain rfl := Except.ok.inj h
    cases g <;> simp
  | cons u us ih =>
    intro segs out g cur h
    obtain ⟨-, ⟨-, hw⟩ | ⟨-, hw⟩⟩ := segmentWalk_cons_ok h <;> simpa using ih hw

/-- The walk closes no empty segment: a unit that fits alone joins an empty one. -/
theorem segmentWalk_ne_nil {υ : Type} {cost : υ → Nat} {fits : Nat → Bool} {U : List υ} :
    ∀ {segs out : List (List υ)} {g : List υ} {cur : Nat}, (∀ x ∈ segs, x ≠ []) → (g = [] → cur = 0) →
      segmentWalk cost fits U segs g cur = .ok out → ∀ x ∈ out, x ≠ [] := by
  induction U with
  | nil =>
    intro segs out g cur hsegs _ h
    obtain rfl := Except.ok.inj h
    cases g with
    | nil => simpa using hsegs
    | cons v g => simpa [or_imp, forall_and] using hsegs
  | cons u us ih =>
    intro segs out g cur hsegs hcur h
    obtain ⟨hu, ⟨hfull, hw⟩ | ⟨-, hw⟩⟩ := segmentWalk_cons_ok h
    · have hg : g ≠ [] := fun hnil => by simp [hcur hnil, hu] at hfull
      exact ih (by simpa [or_imp, forall_and] using ⟨hsegs, hg⟩) (by simp) hw
    · exact ih hsegs (by simp) hw

theorem segment_flatten {υ : Type} {cost : υ → Nat} {fits : Nat → Bool} {U : List υ}
    {out : List (List υ)} (h : segment cost fits U = .ok out) : out.flatten = U := by
  simpa using segmentWalk_flatten h

/-- No more segments than units. -/
theorem segment_length_le {υ : Type} {cost : υ → Nat} {fits : Nat → Bool} {U : List υ}
    {out : List (List υ)} (h : segment cost fits U = .ok out) : out.length ≤ U.length := by
  have hne : ∀ x ∈ out, x ≠ [] := segmentWalk_ne_nil (by simp) (fun _ => rfl) h
  have hle := List.length_le_sum_of_one_le (out.map List.length)
    (by simpa [Nat.one_le_iff_ne_zero] using hne)
  rwa [List.length_map, ← List.length_flatten, segment_flatten h] at hle

theorem segmentText_ok {β : Type} {units : Text → Except ErrorKind (List (List β))} {fits : Nat → Bool}
    {t : Text} {out : List (List (List β))} (h : segmentText units fits t = .ok out) :
    ∃ U, units t = .ok U ∧ segment List.length fits U = .ok out := by
  unfold segmentText at h
  split at h
  · cases h
  next U hU => exact ⟨U, hU, h⟩

/-- Segments emitted in no more octets than they have elements take no more octets than all elements. -/
theorem sum_map_emit_le {β : Type} {emit : List (List β) → List Octet}
    (hemit : ∀ g, (emit g).length ≤ g.flatten.length) (out : List (List (List β))) :
    ((out.map emit).map List.length).sum ≤ out.flatten.flatten.length := by
  induction out with
  | nil => simp
  | cons g out ih =>
    have hg := hemit g
    simp only [List.map_cons, List.sum_cons, List.flatten_cons, List.flatten_append, List.length_append]
    omega

/-- The segments are within the capacities of `BOUT` that a text of this length needs (R24). -/
def SegmentsWithin (n : Nat) (segs : List (List Octet)) : Prop :=
  segs.length ≤ n ∧ (segs.map List.length).sum ≤ 4 * n

/-- What the three ESPLIT commands share: units of at most four elements, segments emitted in no more octets
than they have elements. -/
theorem split_within {β : Type} {unit : CodePoint → Except ErrorKind (List β)} {fits : Nat → Bool}
    {emit : List (List β) → List Octet} (hunit : ∀ cp u, unit cp = .ok u → u.length ≤ 4)
    (hemit : ∀ g, (emit g).length ≤ g.flatten.length) {t : Text} {segs : List (List Octet)}
    (h : (segmentText (lookupAll unit) fits t).map (List.map emit) = .ok segs) :
    SegmentsWithin t.length segs := by
  obtain ⟨out, hout, rfl⟩ := exceptMap_ok h
  obtain ⟨U, hU, hseg⟩ := segmentText_ok hout
  constructor
  · rw [List.length_map, ← lookupAll_length hU]
    exact segment_length_le hseg
  · calc ((out.map emit).map List.length).sum
        ≤ out.flatten.flatten.length := sum_map_emit_le hemit out
      _ = U.flatten.length := by rw [segment_flatten hseg]
      _ ≤ 4 * t.length := lookupAll_flatten_length_le hunit hU

theorem splitG7u_within (limit : Nat) (t : Text) (segs : List (List Octet))
    (h : splitG7u limit t = .ok segs) : SegmentsWithin t.length segs :=
  split_within (fun cp u hu => (unit7_length_le cp u hu).trans (by decide)) (fun _ => (List.length_map _).le) h

theorem splitG7p_within (limit : Nat) (t : Text) (segs : List (List Octet))
    (h : splitG7p limit t = .ok segs) : SegmentsWithin t.length segs :=
  split_within (fun cp u hu => (unit7_length_le cp u hu).trans (by decide))
    (fun g => pack_withFiller_length_le g.flatten) h

theorem splitUcs2_within (limit : Nat) (t : Text) (segs : List (List Octet))
    (h : splitUcs2 limit t = .ok segs) : SegmentsWithin t.length segs :=
  split_within unitU_length_le (fun _ => le_rfl) h

/-! ### The sizes and the characters of DEC (R97, R163) -/

/-- A text of at most `n` Unicode scalar values (R25). -/
def ScalarsWithin (n : Nat) (t : Text) : Prop := t.length ≤ n ∧ ∀ cp ∈ t, scalarValue cp

theorem ScalarsWithin.nil (n : Nat) : ScalarsWithin n [] := ⟨Nat.zero_le n, by simp⟩

theorem ScalarsWithin.cons {n : Nat} {cp : CodePoint} {t : Text} (hcp : scalarValue cp)
    (ht : ScalarsWithin n t) : ScalarsWithin (n + 1) (cp :: t) :=
  ⟨Nat.succ_le_succ ht.1, List.forall_mem_cons.mpr ⟨hcp, ht.2⟩⟩

theorem ScalarsWithin.mono {m n : Nat} {t : Text} (ht : ScalarsWithin m t) (h : m ≤ n) :
    ScalarsWithin n t :=
  ⟨ht.1.trans h, ht.2⟩

/-- Every character of the Basic table lies below the surrogates (R91). -/
theorem romBasic_below_surrogates :
    romBasic.all (fun e => e.all (fun x => decide (x.toNat ≤ 0xD7FF))) = true := by decide

/-- Every character of the Extension table lies below the surrogates (R92). -/
theorem romExt_below_surrogates : romExt.all (fun p => decide (p.2.toNat ≤ 0xD7FF)) = true := by decide

theorem basicDec_scalar {c : Septet} {cp : CodePoint} (h : basicDec c = some cp) : scalarValue cp := by
  have hmem : some cp ∈ romBasic := List.mem_of_getElem? (Option.join_eq_some_iff.mp h)
  exact .inl (by simpa using List.all_eq_true.mp romBasic_below_surrogates _ hmem)

theorem extDec_scalar {c : Septet} {cp : CodePoint} (h : extDec c = some cp) : scalarValue cp := by
  obtain ⟨p, hp, rfl⟩ := Option.map_eq_some_iff.mp h
  have hmem : p ∈ romExt := List.mem_of_find?_eq_some hp
  exact .inl (by simpa using List.all_eq_true.mp romExt_below_surrogates p hmem)

/-- What the septet loop can do: read one Basic code, or an escape and an Extension code (R97). -/
theorem decodeSeptets_cons_ok {b : Octet} {bs : List Octet} {t : Text}
    (h : decodeSeptets (b :: bs) = .ok t) :
    (∃ cp u, basicDec (b.setWidth 7) = some cp ∧ decodeSeptets bs = .ok u ∧ t = cp :: u) ∨
    (∃ c cs cp u, b.setWidth 7 = escSeptet ∧ bs = c :: cs ∧ extDec (c.setWidth 7) = some cp ∧
      decodeSeptets cs = .ok u ∧ t = cp :: u) := by
  rw [decodeSeptets_cons] at h
  split at h
  · cases h
  split at h
  next hesc =>
    cases bs with
    | nil => cases h
    | cons c cs =>
      simp only at h
      split at h
      · cases h
      split at h
      · cases h
      next cp hcp =>
        obtain ⟨u, hu, rfl⟩ := exceptMap_ok h
        exact .inr ⟨c, cs, cp, u, hesc, rfl, hcp, hu, rfl⟩
  next =>
    split at h
    · cases h
    next cp hcp =>
      obtain ⟨u, hu, rfl⟩ := exceptMap_ok h
      exact .inl ⟨cp, u, hcp, hu, rfl⟩

/-- At most one character for each septet. -/
theorem decodeSeptets_within (B : List Octet) (t : Text) (h : decodeSeptets B = .ok t) :
    ScalarsWithin B.length t := by
  cases B with
  | nil =>
    obtain rfl := Except.ok.inj h
    exact .nil _
  | cons b bs =>
    obtain ⟨cp, u, hcp, hu, rfl⟩ | ⟨c, cs, cp, u, -, rfl, hcp, hu, rfl⟩ := decodeSeptets_cons_ok h
    · exact (decodeSeptets_within bs u hu).cons (basicDec_scalar hcp)
    · exact ((decodeSeptets_within cs u hu).cons (extDec_scalar hcp)).mono (Nat.le_succ _)
termination_by B.length

/-- A surrogate pair is a Unicode scalar value (R163). -/
theorem surrogatePair_scalar {a b : CodeUnit} (ha : 0xD800 ≤ a.toNat ∧ a.toNat ≤ 0xDBFF)
    (hb : 0xDC00 ≤ b.toNat ∧ b.toNat ≤ 0xDFFF) :
    scalarValue (BitVec.ofNat 21 (0x10000 + (a.toNat - 0xD800) * 0x400 + (b.toNat - 0xDC00))) := by
  simp only [scalarValue, BitVec.toNat_ofNat]
  omega

/-- A code unit that is no surrogate is a Unicode scalar value (R163). -/
theorem codeUnit_scalar {a : CodeUnit} (hhigh : ¬ (0xD800 ≤ a.toNat ∧ a.toNat ≤ 0xDBFF))
    (hlow : ¬ (0xDC00 ≤ a.toNat ∧ a.toNat ≤ 0xDFFF)) : scalarValue (a.setWidth 21) := by
  simp only [scalarValue, BitVec.toNat_setWidth]
  omega

/-- What the code unit loop can do: read a surrogate pair, or a unit that is no surrogate (R163). -/
theorem decodeUnits_cons_ok {a : CodeUnit} {us : List CodeUnit} {t : Text}
    (h : decodeUnits (a :: us) = .ok t) :
    (∃ b vs u, us = b :: vs ∧ (0xD800 ≤ a.toNat ∧ a.toNat ≤ 0xDBFF) ∧ (0xDC00 ≤ b.toNat ∧ b.toNat ≤ 0xDFFF) ∧
      decodeUnits vs = .ok u ∧
      t = BitVec.ofNat 21 (0x10000 + (a.toNat - 0xD800) * 0x400 + (b.toNat - 0xDC00)) :: u) ∨
    (∃ u, ¬ (0xD800 ≤ a.toNat ∧ a.toNat ≤ 0xDBFF) ∧ ¬ (0xDC00 ≤ a.toNat ∧ a.toNat ≤ 0xDFFF) ∧
      decodeUnits us = .ok u ∧ t = a.setWidth 21 :: u) := by
  rw [decodeUnits_cons] at h
  split at h
  next ha =>
    cases us with
    | nil => cases h
    | cons b vs =>
      simp only at h
      split at h
      next hb =>
        obtain ⟨u, hu, rfl⟩ := exceptMap_ok h
        exact .inl ⟨b, vs, u, rfl, ha, hb, hu, rfl⟩
      · cases h
  next ha =>
    split at h
    · cases h
    next hlow =>
      obtain ⟨u, hu, rfl⟩ := exceptMap_ok h
      exact .inr ⟨u, ha, hlow, hu, rfl⟩

/-- At most one character for each code unit. -/
theorem decodeUnits_within (us : List CodeUnit) (t : Text) (h : decodeUnits us = .ok t) :
    ScalarsWithin us.length t := by
  cases us with
  | nil =>
    obtain rfl := Except.ok.inj h
    exact .nil _
  | cons a us =>
    obtain ⟨b, vs, u, rfl, ha, hb, hu, rfl⟩ | ⟨u, ha, hlow, hu, rfl⟩ := decodeUnits_cons_ok h
    · exact ((decodeUnits_within vs u hu).cons (surrogatePair_scalar ha hb)).mono (Nat.le_succ _)
    · exact (decodeUnits_within us u hu).cons (codeUnit_scalar ha hlow)
termination_by us.length

theorem codeUnits_length_le (B : List Octet) : (codeUnits B).length ≤ B.length := by
  induction B using codeUnits.induct with
  | case1 hi lo rest ih =>
    simp only [codeUnits, List.length_cons]
    omega
  | case2 B hB => simp [codeUnits]

theorem decodeG7u_within (B : List Octet) (t : Text) (h : decodeSeptets B = .ok t) :
    ScalarsWithin (2 * B.length) t :=
  (decodeSeptets_within B t h).mono (by omega)

theorem decodeG7p_within (B : List Octet) (t : Text)
    (h : decodeSeptets ((unpack B).map septetOctet) = .ok t) : ScalarsWithin (2 * B.length) t :=
  (decodeSeptets_within _ t h).mono (by simp only [List.length_map, unpack_length]; omega)

theorem decodeU_within (B : List Octet) (t : Text) (h : decodeU B = .ok t) :
    ScalarsWithin (2 * B.length) t := by
  unfold decodeU at h
  split at h
  · cases h
  · have hlen := codeUnits_length_le B
    exact (decodeUnits_within _ t h).mono (by omega)

/-! ### What a command leaves is legal -/

/-- The outputs the invariant allows, for a command that leaves `commandEnd segs text r v s`. -/
structure LegalOutputs (segs : List (List Octet)) (text : Text) (r v : BitVec 8) : Prop where
  statusLegal : v ∈ legalStatus
  resultLegal : r ∈ legalResult
  emptyUnlessOk : v ≠ 0x80#8 → r = 0x00#8 ∧ segs = [] ∧ text = []
  oneOutput : segs = [] ∨ text = []
  segmentCapacity : segs.length ≤ max 1 Config.tMax
  octetCapacity : (segs.map List.length).sum ≤ 4 * Config.tMax
  textWithin : ScalarsWithin (2 * Config.bMax) text

/-- An error leaves empty outputs and its own `STATUS` (R206). -/
theorem LegalOutputs.error (e : ErrorKind) : LegalOutputs [] [] 0x00#8 (errorStatus e) where
  statusLegal := by cases e <;> decide
  resultLegal := by decide
  emptyUnlessOk _ := ⟨rfl, rfl, rfl⟩
  oneOutput := .inl rfl
  segmentCapacity := Nat.zero_le _
  octetCapacity := Nat.zero_le _
  textWithin := .nil _

theorem LegalOutputs.segments {segs : List (List Octet)} (hcount : segs.length ≤ max 1 Config.tMax)
    (hoctets : (segs.map List.length).sum ≤ 4 * Config.tMax) : LegalOutputs segs [] 0x00#8 0x80#8 where
  statusLegal := by decide
  resultLegal := by decide
  emptyUnlessOk h := absurd rfl h
  oneOutput := .inr rfl
  segmentCapacity := hcount
  octetCapacity := hoctets
  textWithin := .nil _

theorem LegalOutputs.text {t : Text} (h : ScalarsWithin (2 * Config.bMax) t) :
    LegalOutputs [] t 0x00#8 0x80#8 where
  statusLegal := by decide
  resultLegal := by decide
  emptyUnlessOk h := absurd rfl h
  oneOutput := .inl rfl
  segmentCapacity := Nat.zero_le _
  octetCapacity := Nat.zero_le _
  textWithin := h

theorem LegalOutputs.result {r : BitVec 8} (h : r ∈ legalResult) : LegalOutputs [] [] r 0x80#8 where
  statusLegal := by decide
  resultLegal := h
  emptyUnlessOk h := absurd rfl h
  oneOutput := .inl rfl
  segmentCapacity := Nat.zero_le _
  octetCapacity := Nat.zero_le _
  textWithin := .nil _

/-- Writing legal outputs keeps the invariant: a command changes nothing else (R33). -/
theorem Inv.commandEnd {s : State} (h : Inv s) {segs : List (List Octet)} {text : Text} {r v : BitVec 8}
    (ho : LegalOutputs segs text r v) : Inv (commandEnd segs text r v s) where
  tinWf := h.tinWf
  binWf := h.binWf
  tinCapacity := h.tinCapacity
  binCapacity := h.binCapacity
  tinLenCapacity := h.tinLenCapacity
  binLenCapacity := h.binLenCapacity
  segCntAgrees := rfl
  segLenAgrees := rfl
  tLenAgrees := rfl
  statusLegal := ho.statusLegal
  resultLegal := ho.resultLegal
  emptyUnlessOk := ho.emptyUnlessOk
  oneOutput := ho.oneOutput
  segmentCapacity := ho.segmentCapacity
  octetCapacity := ho.octetCapacity
  textCapacity := ho.textWithin.1
  textScalar := ho.textWithin.2
  onePortWidth := h.onePortWidth

/-- The outcome is the end of a command on `s`, with legal outputs. -/
def EndsLegally (o : Host.Outcome State Fault Refusal) (s : State) : Prop :=
  ∃ segs text r v, o = .next (commandEnd segs text r v s) ∧ LegalOutputs segs text r v

theorem endsLegally_error (e : ErrorKind) (s : State) :
    EndsLegally (.next (commandEnd [] [] 0x00#8 (errorStatus e) s)) s :=
  ⟨_, _, _, _, rfl, .error e⟩

theorem encodeCommand_endsLegally {enc : Text → Except ErrorKind (List Octet)}
    (henc : ∀ t b, enc t = .ok b → b.length ≤ 4 * t.length) {s : State} (hs : s.tinLen ≤ Config.tMax) :
    EndsLegally (encodeCommand enc s) s := by
  rw [encodeCommand_eq]
  cases hb : enc (textOperand s) with
  | error e => exact endsLegally_error e s
  | ok b =>
    have hlen := henc _ b hb
    rw [textOperand_length] at hlen
    refine ⟨_, _, _, _, rfl, .segments (Nat.le_max_left _ _) ?_⟩
    simp only [List.map_cons, List.map_nil, List.sum_cons, List.sum_nil]
    omega

theorem decodeCommand_endsLegally {dec : List Octet → Except ErrorKind Text}
    (hdec : ∀ B t, dec B = .ok t → ScalarsWithin (2 * B.length) t) {s : State}
    (hs : s.binLen ≤ Config.bMax) : EndsLegally (decodeCommand dec s) s := by
  rw [decodeCommand_eq]
  cases ht : dec (byteOperand s) with
  | error e => exact endsLegally_error e s
  | ok t =>
    have hwithin := hdec _ t ht
    rw [byteOperand_length] at hwithin
    exact ⟨_, _, _, _, rfl, .text (hwithin.mono (Nat.mul_le_mul_left 2 hs))⟩

theorem shouldSplitCommand_endsLegally (size : Text → Except ErrorKind Nat) (limit : Nat) (s : State) :
    EndsLegally (shouldSplitCommand size limit s) s := by
  rw [shouldSplitCommand_eq]
  cases size (textOperand s) with
  | error e => exact endsLegally_error e s
  | ok n => exact ⟨_, _, _, _, rfl, .result (by split <;> decide)⟩

theorem splitCommand_endsLegally {split : Text → Except ErrorKind (List (List Octet))}
    (hsplit : ∀ t segs, split t = .ok segs → SegmentsWithin t.length segs) {s : State}
    (hs : s.tinLen ≤ Config.tMax) : EndsLegally (splitCommand split s) s := by
  rw [splitCommand_eq]
  cases hb : split (textOperand s) with
  | error e => exact endsLegally_error e s
  | ok segs =>
    obtain ⟨hcount, hoctets⟩ := hsplit _ segs hb
    rw [textOperand_length] at hcount hoctets
    exact ⟨_, _, _, _, rfl, .segments (by omega) (by omega)⟩

theorem dataCodingCommand_endsLegally {id : BitVec 8} (hid : id ∈ legalResult) (s : State) :
    EndsLegally (dataCodingCommand id s) s :=
  ⟨_, _, _, _, rfl, .result hid⟩

/-- Every command ends with legal outputs, when its operands are within the capacities of the inputs. -/
theorem exec_endsLegally (i : Instr) {s : State} (htin : s.tinLen ≤ Config.tMax)
    (hbin : s.binLen ≤ Config.bMax) : EndsLegally (exec i s) s := by
  cases i with
  | g7uEnc _ => exact encodeCommand_endsLegally encodeG7u_length_le htin
  | g7uDec _ => exact decodeCommand_endsLegally decodeG7u_within hbin
  | g7uSsplit limit => exact shouldSplitCommand_endsLegally _ limit s
  | g7uEsplit limit => exact splitCommand_endsLegally (splitG7u_within limit) htin
  | g7uDcode _ => exact dataCodingCommand_endsLegally (by decide) s
  | g7pEnc _ => exact encodeCommand_endsLegally encodeG7p_length_le htin
  | g7pDec _ => exact decodeCommand_endsLegally decodeG7p_within hbin
  | g7pSsplit limit =>
    exact shouldSplitCommand_endsLegally (fun t => (septetCount t).map packedLen) limit s
  | g7pEsplit limit => exact splitCommand_endsLegally (splitG7p_within limit) htin
  | g7pDcode _ => exact dataCodingCommand_endsLegally (by decide) s
  | ucs2Enc _ => exact encodeCommand_endsLegally encodeU_length_le htin
  | ucs2Dec _ => exact decodeCommand_endsLegally decodeU_within hbin
  | ucs2Ssplit limit => exact shouldSplitCommand_endsLegally _ limit s
  | ucs2Esplit limit => exact splitCommand_endsLegally (splitUcs2_within limit) htin
  | ucs2Dcode _ => exact dataCodingCommand_endsLegally (by decide) s

/-! ### The invariant, by the host's action -/

/-- One write of the command port keeps the invariant, for an assigned and for a reserved opcode byte. -/
theorem issue_inv {cw : CommandWord} {s t : State} (h : Inv s) (hn : issue cw s = .next t) : Inv t := by
  have hends : EndsLegally (issue cw s) s := by
    obtain ⟨i, -, hi⟩ | ⟨r, -, hr⟩ := issue_cases cw s
    · rw [hi]
      exact exec_endsLegally i h.tinLenCapacity h.binLenCapacity
    · rw [hr]
      exact endsLegally_error .illegalCommand s
  obtain ⟨segs, text, r, v, ho, hlegal⟩ := hends
  rw [ho, Host.Outcome.next.injEq] at hn
  exact hn ▸ h.commandEnd hlegal

/-- The elements of a buffer within its capacity are within it after a write below the capacity. -/
theorem Memory.write_capacity {w n : Nat} {m : Memory w} (h : ∀ p ∈ m, p.1 < n) {i : Nat} (hi : i < n)
    (v : BitVec w) : ∀ p ∈ Memory.write m i v, p.1 < n := by
  intro p hp
  obtain rfl | hp := Memory.mem_write hp
  · exact hi
  · exact h p hp

/-- The elements kept below an index are elements that were there. -/
theorem Memory.mem_of_mem_below {w n : Nat} {m : Memory w} {p : Nat × BitVec w}
    (h : p ∈ Memory.below m n) : p ∈ m :=
  (List.mem_filter.mp h).1

theorem setTinLen_inv {s : State} (h : Inv s) {n : Nat} (hn : n ≤ Config.tMax) : Inv (setTinLen n s) := by
  unfold setTinLen
  split
  · exact { h with
      tinWf := Memory.below_wf h.tinWf n
      tinCapacity := fun p hp => h.tinCapacity p (Memory.mem_of_mem_below hp)
      tinLenCapacity := hn }
  · exact { h with tinLenCapacity := hn }

theorem setBinLen_inv {s : State} (h : Inv s) {n : Nat} (hn : n ≤ Config.bMax) : Inv (setBinLen n s) := by
  unfold setBinLen
  split
  · exact { h with
      binWf := Memory.below_wf h.binWf n
      binCapacity := fun p hp => h.binCapacity p (Memory.mem_of_mem_below hp)
      binLenCapacity := hn }
  · exact { h with binLenCapacity := hn }

/-- Reset keeps of the state only what the host will do next, and the invariant holds at reset (R230). -/
theorem resetBlock_inv {s : State} (h : Inv s) : Inv (resetBlock s) where
  tinWf := Memory.nil_wf
  binWf := Memory.nil_wf
  tinCapacity := by simp
  binCapacity := by simp
  tinLenCapacity := Nat.zero_le _
  binLenCapacity := Nat.zero_le _
  segCntAgrees := rfl
  segLenAgrees := rfl
  tLenAgrees := rfl
  statusLegal := by simp [legalStatus]
  resultLegal := by simp [legalResult]
  emptyUnlessOk _ := ⟨rfl, rfl, rfl⟩
  oneOutput := .inl rfl
  segmentCapacity := Nat.zero_le _
  octetCapacity := Nat.zero_le _
  textCapacity := Nat.zero_le _
  textScalar := by simp
  onePortWidth := h.onePortWidth

/-- A guarded move that answers a next state met its guard. -/
theorem guarded_next {c : Prop} [Decidable c] {s t : State} {r : Refusal}
    (h : (if c then .next s else .refused r : Host.Outcome State Fault Refusal) = .next t) :
    c ∧ s = t := by
  split at h
  next hc => exact ⟨hc, Host.Outcome.next.inj h⟩
  · cases h

/-- A host move that has a transition keeps the invariant: past a capacity there is none (R62, U14). -/
theorem hostMove_inv {m : HostMove} {s t : State} (h : Inv s) (hn : hostMove m s = .next t) : Inv t := by
  cases m with
  | writeTin i v =>
    obtain ⟨hi, rfl⟩ := guarded_next hn
    exact { h with
      tinWf := Memory.write_wf h.tinWf i v
      tinCapacity := Memory.write_capacity h.tinCapacity hi v }
  | writeTinLen n =>
    obtain ⟨hle, rfl⟩ := guarded_next hn
    exact setTinLen_inv h hle
  | writeBin i v =>
    obtain ⟨hi, rfl⟩ := guarded_next hn
    exact { h with
      binWf := Memory.write_wf h.binWf i v
      binCapacity := Memory.write_capacity h.binCapacity hi v }
  | writeBinLen n =>
    obtain ⟨hle, rfl⟩ := guarded_next hn
    exact setBinLen_inv h hle
  | read r =>
    obtain ⟨-, rfl⟩ := guarded_next hn
    exact h
  | reset =>
    obtain rfl := Host.Outcome.next.inj hn
    exact resetBlock_inv h

/-- Taking the next action leaves actions that were already there. -/
theorem Inv.tail {s : State} (h : Inv s) {a : HostAction} {rest : List HostAction}
    (hp : s.pending = a :: rest) : Inv { s with pending := rest } := by
  obtain ⟨lw, hlw, hwords⟩ := h.onePortWidth
  exact { h with
    onePortWidth := ⟨lw, hlw, fun cw hcw => hwords cw (hp ▸ List.mem_cons_of_mem a hcw)⟩ }

/-- Settles O59: the action is taken out of the list, and then a command ends with legal outputs or a host
move stays within the capacities. -/
theorem everyStepKeepsTheInvariant : Obligations.EveryStepKeepsTheInvariant := by
  intro s t h hn
  obtain ⟨-, hs⟩ | ⟨cw, rest, hp, hs⟩ | ⟨m, rest, hp, hs⟩ := step_cases s <;> rw [hs] at hn
  · exact Host.Outcome.next.inj hn ▸ h
  · exact issue_inv (h.tail hp) hn
  · exact hostMove_inv (h.tail hp) hn

end Sys2Proof.Machine

/-! PROOFS. What a command leaves of the state (10_state.md): said once for all fifteen commands, as a function
of the command and its operands, and then read off for each statement. After it the operands, the length
registers, `STATUS` and the invariant at reset. -/

namespace Sys2Proof.Machine

/-! ### The errors of the codecs (R200 to R203) -/

/-- `e` is the only error that `f` can answer. -/
def FailsOnlyWith {α β : Type} (e : ErrorKind) (f : α → Except ErrorKind β) : Prop :=
  ∀ x e', f x = .error e' → e' = e

/-- A result mapped fails as the result does. -/
theorem exceptMap_error {ε α β : Type} {f : α → β} {x : Except ε α} {e : ε} (h : x.map f = .error e) :
    x = .error e := by
  cases x with
  | error e' => exact congrArg Except.error (Except.error.inj h)
  | ok a => cases h

theorem FailsOnlyWith.map {α β γ : Type} {e : ErrorKind} {f : α → Except ErrorKind β}
    (h : FailsOnlyWith e f) (g : β → γ) : FailsOnlyWith e (fun x => (f x).map g) :=
  fun x e' hx => h x e' (exceptMap_error hx)

theorem unit7_failsOnly : FailsOnlyWith .unencodableCharacter unit7 := fun _ _ => unit7_error

theorem unitU_failsOnly : FailsOnlyWith .unencodableCharacter unitU := fun _ _ => unitU_error

/-- The error of a text is the error of one of its characters (R96, R162). -/
theorem FailsOnlyWith.lookupAll {β : Type} {e : ErrorKind} {unit : CodePoint → Except ErrorKind β}
    (h : FailsOnlyWith e unit) : FailsOnlyWith e (lookupAll unit) := by
  intro t e' ht
  obtain ⟨p, cp, q, -, -, hcp⟩ := (lookupAll_error unit t e').mp ht
  exact h cp e' hcp

theorem encodeSeptets_failsOnly : FailsOnlyWith .unencodableCharacter encodeSeptets :=
  unit7_failsOnly.lookupAll.map List.flatten

theorem encodeU_failsOnly : FailsOnlyWith .unencodableCharacter encodeU :=
  unitU_failsOnly.lookupAll.map List.flatten

theorem septetCount_failsOnly : FailsOnlyWith .unencodableCharacter septetCount :=
  encodeSeptets_failsOnly.map List.length

theorem byteLen_failsOnly : FailsOnlyWith .unencodableCharacter byteLen :=
  encodeU_failsOnly.map List.length

/-- The septet loop ends without a text in MalformedInput only (R97). -/
theorem decodeSeptets_failsOnly : FailsOnlyWith .malformedInput decodeSeptets := by
  intro B e h
  fun_induction decodeSeptets B
  case case1 => cases h
  case case6 ih | case8 ih => exact ih (exceptMap_error h)
  all_goals exact (Except.error.inj h).symm

/-- The code unit loop ends without a text in MalformedInput only (R163). -/
theorem decodeUnits_failsOnly : FailsOnlyWith .malformedInput decodeUnits := by
  intro us e h
  fun_induction decodeUnits us
  case case1 => cases h
  case case3 ih | case6 ih => exact ih (exceptMap_error h)
  all_goals exact (Except.error.inj h).symm

theorem decodeU_failsOnly : FailsOnlyWith .malformedInput decodeU := by
  intro B e h
  unfold decodeU at h
  split at h
  · exact (Except.error.inj h).symm
  · exact decodeUnits_failsOnly _ e h

/-- The only error of the walk (R181, R183). -/
theorem segment_error {υ : Type} {cost : υ → Nat} {fits : Nat → Bool} {U : List υ} {e : ErrorKind}
    (h : segment cost fits U = .error e) : e = .segmentLimitTooSmall := by
  obtain ⟨hfails, hanswers⟩ := segmentWalk_answers cost fits U [] [] 0
  by_cases hU : ∃ u ∈ U, fits (cost u) = false
  · exact Except.error.inj (h.symm.trans (hfails hU))
  · obtain ⟨out, hout⟩ := hanswers (by simpa using hU)
    cases h.symm.trans hout

/-- A split fails in the lookup of the text or in the walk (R207). -/
theorem segmentText_error {β : Type} {units : Text → Except ErrorKind (List (List β))} {fits : Nat → Bool}
    {t : Text} {e : ErrorKind} (h : segmentText units fits t = .error e) :
    units t = .error e ∨ e = .segmentLimitTooSmall := by
  unfold segmentText at h
  split at h
  next e' hU => exact .inl (by rw [hU, Except.error.inj h])
  · exact .inr (segment_error h)

/-! ### No segment of ESPLIT is empty (R182) -/

theorem unit7_ne_nil {cp : CodePoint} {u : List Septet} (h : unit7 cp = .ok u) : u ≠ [] := by
  unfold unit7 at h
  split at h
  · cases h; simp
  · split at h <;> cases h
    simp

theorem unitU_ne_nil {cp : CodePoint} {u : List Octet} (h : unitU cp = .ok u) : u ≠ [] := by
  unfold unitU at h
  split at h
  · cases h; simp [unitOctets]
  · split at h <;> cases h
    simp [unitOctets]

/-- A unit of a text is the unit of one of its characters. -/
theorem exists_unit_of_mem_lookupAll {β : Type} {unit : CodePoint → Except ErrorKind β} {t : Text} {us : List β}
    (h : lookupAll unit t = .ok us) {u : β} (hu : u ∈ us) : ∃ cp, unit cp = .ok u := by
  induction (lookupAll_ok unit t us).mp h with
  | nil => cases hu
  | @cons cp v t vs hv hvs ih =>
    obtain rfl | hu := List.mem_cons.mp hu
    · exact ⟨cp, hv⟩
    · exact ih ((lookupAll_ok unit t vs).mpr hvs) hu

/-- Each segment of a text has an element, when each character's unit has one: the walk closes no empty
segment. -/
theorem segmentText_flatten_ne_nil {β : Type} {unit : CodePoint → Except ErrorKind (List β)}
    (hunit : ∀ {cp u}, unit cp = .ok u → u ≠ []) {fits : Nat → Bool} {t : Text} {out : List (List (List β))}
    (h : segmentText (lookupAll unit) fits t = .ok out) : ∀ g ∈ out, g.flatten ≠ [] := by
  obtain ⟨U, hU, hseg⟩ := segmentText_ok h
  intro g hg
  have hne : g ≠ [] := segmentWalk_ne_nil (by simp) (fun _ => rfl) hseg g hg
  obtain ⟨u, hu⟩ := List.exists_mem_of_ne_nil g hne
  have hmem : u ∈ U := segment_flatten hseg ▸ List.mem_flatten_of_mem hg hu
  obtain ⟨cp, hcp⟩ := exists_unit_of_mem_lookupAll hU hmem
  exact List.flatten_ne_nil_iff.mpr ⟨u, hu, hunit hcp⟩

theorem pack_withFiller_ne_nil {S : List Septet} (h : S ≠ []) : pack (withFiller S) ≠ [] := by
  have hpos := List.length_pos_iff.mpr h
  refine List.length_pos_iff.mp ?_
  simp only [pack_length, withFiller, List.length_append, packedLen, ceilDiv]
  omega

/-! ### What a command leaves (R24 to R27, R205) -/

/-- The outputs a command can leave: its results with `STATUS` 0x80, or no output with the `STATUS` of an
error its operation can raise. -/
inductive CommandLeaves (i : Instr) : List (List Octet) → Text → BitVec 8 → BitVec 8 → Prop where
  | encoded (hop : i.op = .enc) (b : List Octet) : CommandLeaves i [b] [] 0x00#8 0x80#8
  | decoded (hop : i.op = .dec) {t : Text} (ht : ∀ cp ∈ t, scalarValue cp) :
      CommandLeaves i [] t 0x00#8 0x80#8
  | compared (hop : i.op = .ssplit) (exceeds : Prop) [Decidable exceeds] :
      CommandLeaves i [] [] (if exceeds then 0x01#8 else 0x00#8) 0x80#8
  | segmented (hop : i.op = .esplit) {segs : List (List Octet)} (hsegs : ∀ g ∈ segs, g ≠ []) :
      CommandLeaves i segs [] 0x00#8 0x80#8
  | identified (hop : i.op = .dcode) :
      CommandLeaves i [] [] (if i.codec = .ucs2 then 0x08#8 else 0x00#8) 0x80#8
  | unencodable (hop : i.op = .enc ∨ i.op = .ssplit ∨ i.op = .esplit) : CommandLeaves i [] [] 0x00#8 0xC1#8
  | malformed (hop : i.op = .dec) : CommandLeaves i [] [] 0x00#8 0xC2#8
  | limitTooSmall (hop : i.op = .esplit) : CommandLeaves i [] [] 0x00#8 0xC3#8

/-- `run` leaves what the command `i` can leave, and its operands alone decide which (R33). -/
def LeavesByOperands (i : Instr) (run : State → Host.Outcome State Fault Refusal) : Prop :=
  ∀ (T : Text) (B : List Octet), ∃ segs text r v, CommandLeaves i segs text r v ∧
    ∀ s, textOperand s = T → byteOperand s = B → run s = .next (commandEnd segs text r v s)

theorem encodeCommand_leaves {i : Instr} (hop : i.op = .enc) {enc : Text → Except ErrorKind (List Octet)}
    (herr : FailsOnlyWith .unencodableCharacter enc) : LeavesByOperands i (encodeCommand enc) := by
  intro T B
  cases hT : enc T with
  | ok b => exact ⟨_, _, _, _, .encoded hop b, by rintro s rfl -; simp [hT]⟩
  | error e =>
    obtain rfl := herr T e hT
    exact ⟨_, _, _, _, .unencodable (.inl hop), by rintro s rfl -; simp [hT]⟩

theorem decodeCommand_leaves {i : Instr} (hop : i.op = .dec) {dec : List Octet → Except ErrorKind Text}
    (hok : ∀ B t, dec B = .ok t → ScalarsWithin (2 * B.length) t)
    (herr : FailsOnlyWith .malformedInput dec) : LeavesByOperands i (decodeCommand dec) := by
  intro T B
  cases hB : dec B with
  | ok t => exact ⟨_, _, _, _, .decoded hop (hok B t hB).2, by rintro s - rfl; simp [hB]⟩
  | error e =>
    obtain rfl := herr B e hB
    exact ⟨_, _, _, _, .malformed hop, by rintro s - rfl; simp [hB]⟩

theorem shouldSplitCommand_leaves {i : Instr} (hop : i.op = .ssplit) {size : Text → Except ErrorKind Nat}
    (herr : FailsOnlyWith .unencodableCharacter size) (limit : Nat) :
    LeavesByOperands i (shouldSplitCommand size limit) := by
  intro T B
  cases hT : size T with
  | ok n => exact ⟨_, _, _, _, .compared hop (limit < n), by rintro s rfl -; simp [hT]⟩
  | error e =>
    obtain rfl := herr T e hT
    exact ⟨_, _, _, _, .unencodable (.inr (.inl hop)), by rintro s rfl -; simp [hT]⟩

/-- What the three ESPLIT commands share: units that are not empty, emitted in segments that are not empty. -/
theorem splitCommand_leaves {i : Instr} (hop : i.op = .esplit) {β : Type}
    {unit : CodePoint → Except ErrorKind (List β)} {emit : List (List β) → List Octet}
    (hunit : ∀ {cp u}, unit cp = .ok u → u ≠ [])
    (herr : FailsOnlyWith .unencodableCharacter unit)
    (hemit : ∀ {g}, g.flatten ≠ [] → emit g ≠ []) (fits : Nat → Bool) :
    LeavesByOperands i
      (splitCommand fun t => (segmentText (lookupAll unit) fits t).map (List.map emit)) := by
  intro T B
  cases hT : segmentText (lookupAll unit) fits T with
  | ok out =>
    have hne : ∀ g ∈ out.map emit, g ≠ [] :=
      List.forall_mem_map.mpr fun g hg => hemit (segmentText_flatten_ne_nil hunit hT g hg)
    exact ⟨_, _, _, _, .segmented hop hne, by rintro s rfl -; simp [hT, Except.map]⟩
  | error e =>
    obtain he | rfl := segmentText_error hT
    · obtain rfl := herr.lookupAll T e he
      exact ⟨_, _, _, _, .unencodable (.inr (.inr hop)), by rintro s rfl -; simp [hT, Except.map]⟩
    · exact ⟨_, _, _, _, .limitTooSmall hop, by rintro s rfl -; simp [hT, Except.map]⟩

theorem dataCodingCommand_leaves {i : Instr} (hop : i.op = .dcode) :
    LeavesByOperands i (dataCodingCommand (if i.codec = .ucs2 then idUcs2 else idGsm7)) :=
  fun _ _ => ⟨_, _, _, _, .identified hop, fun _ _ _ => rfl⟩

/-- Every command leaves outputs of its operation, decided by its operands. -/
theorem exec_leaves (i : Instr) : LeavesByOperands i (exec i) := by
  cases i with
  | g7uEnc _ => exact encodeCommand_leaves rfl (encodeSeptets_failsOnly.map (List.map septetOctet))
  | g7uDec _ => exact decodeCommand_leaves rfl decodeG7u_within decodeSeptets_failsOnly
  | g7uSsplit limit => exact shouldSplitCommand_leaves rfl septetCount_failsOnly limit
  | g7uEsplit limit => exact splitCommand_leaves rfl unit7_ne_nil unit7_failsOnly (by simp) (fitsOctets limit)
  | g7uDcode _ => exact dataCodingCommand_leaves rfl
  | g7pEnc _ => exact encodeCommand_leaves rfl (encodeSeptets_failsOnly.map pack)
  | g7pDec _ =>
    exact decodeCommand_leaves rfl decodeG7p_within fun B => decodeSeptets_failsOnly ((unpack B).map septetOctet)
  | g7pSsplit limit => exact shouldSplitCommand_leaves rfl (septetCount_failsOnly.map packedLen) limit
  | g7pEsplit limit =>
    exact splitCommand_leaves rfl unit7_ne_nil unit7_failsOnly pack_withFiller_ne_nil (fitsPacked limit)
  | g7pDcode _ => exact dataCodingCommand_leaves rfl
  | ucs2Enc _ => exact encodeCommand_leaves rfl encodeU_failsOnly
  | ucs2Dec _ => exact decodeCommand_leaves rfl decodeU_within decodeU_failsOnly
  | ucs2Ssplit limit => exact shouldSplitCommand_leaves rfl byteLen_failsOnly limit
  | ucs2Esplit limit => exact splitCommand_leaves rfl unitU_ne_nil unitU_failsOnly id (fitsOctets limit)
  | ucs2Dcode _ => exact dataCodingCommand_leaves rfl

/-- Settles O44: what a command leaves is decided by its operands. -/
theorem outputsDependOnOperandsAlone : Obligations.OutputsDependOnOperandsAlone := by
  intro i s s' htext hbyte
  obtain ⟨segs, text, r, v, -, hrun⟩ := exec_leaves i (textOperand s') (byteOperand s')
  exact ⟨segs, text, r, v, hrun s htext hbyte, hrun s' rfl rfl⟩

/-- Settles O42, from O44 with one state for both. -/
theorem everyCommandWritesOnlyTheOutputs : Obligations.EveryCommandWritesOnlyTheOutputs := by
  intro i s
  obtain ⟨segs, text, r, v, hrun, -⟩ := outputsDependOnOperandsAlone i s s rfl rfl
  exact ⟨segs, text, r, v, hrun⟩

/-- The state after a command, by what the command can leave. -/
theorem exec_next {i : Instr} {s t : State} (h : exec i s = .next t) :
    ∃ segs text r v, CommandLeaves i segs text r v ∧ t = commandEnd segs text r v s := by
  obtain ⟨segs, text, r, v, hleaves, hrun⟩ := exec_leaves i (textOperand s) (byteOperand s)
  exact ⟨segs, text, r, v, hleaves, Host.Outcome.next.inj (h.symm.trans (hrun s rfl rfl))⟩

/-- Settles O43, by what the command can leave. -/
theorem outputsAndErrorsOfEachOperation : Obligations.OutputsAndErrorsOfEachOperation := by
  intro i s t h
  obtain ⟨segs, text, r, v, hleaves, rfl⟩ := exec_next h
  refine ⟨rfl, rfl, rfl, ?_⟩
  cases hleaves with
  | encoded hop b => simp [hop]
  | decoded hop ht => simpa [hop] using ht
  | compared hop _ => simp [hop]
  | segmented hop hsegs => simpa [hop] using hsegs
  | identified hop => simp [hop]
  | unencodable hop => simp [hop]
  | malformed hop => simp [hop]
  | limitTooSmall hop => simp [hop]

/-! ### `RESULT` (R26) -/

/-- What a write of the command port leaves: what the command can leave, or IllegalCommand (R74). -/
theorem issue_next {cw : CommandWord} {s t : State} (h : issue cw s = .next t) :
    (∃ i segs text r v, CommandLeaves i segs text r v ∧ t = commandEnd segs text r v s) ∨
    t = commandEnd [] [] 0x00#8 0xC4#8 s := by
  obtain ⟨i, -, hi⟩ | ⟨_, -, hr⟩ := issue_cases cw s
  · exact .inl ⟨i, exec_next (hi ▸ h)⟩
  · exact .inr (Host.Outcome.next.inj (h.symm.trans hr))

/-- What `RESULT` is after a command of each operation. -/
theorem CommandLeaves.result_of_op {i : Instr} {segs : List (List Octet)} {text : Text} {r v : BitVec 8}
    (h : CommandLeaves i segs text r v) :
    (i.op = .ssplit → r = 0x00#8 ∨ r = 0x01#8) ∧
    (i.op = .dcode → r = if i.codec = .ucs2 then 0x08#8 else 0x00#8) ∧
    (i.op ≠ .ssplit → i.op ≠ .dcode → r = 0x00#8) := by
  cases h with
  | compared hop exceeds => by_cases hex : exceeds <;> simp [hop, hex]
  | identified hop => simp [hop]
  | encoded hop b => simp [hop]
  | decoded hop ht => simp [hop]
  | segmented hop hsegs => simp [hop]
  | malformed hop => simp [hop]
  | limitTooSmall hop => simp [hop]
  | unencodable hop => obtain hop | hop | hop := hop <;> simp [hop]

/-- Only a command that ended without error leaves a `RESULT` other than 0. -/
theorem CommandLeaves.result_of_error {i : Instr} {segs : List (List Octet)} {text : Text} {r v : BitVec 8}
    (h : CommandLeaves i segs text r v) (herr : statusErr v = true) : r = 0x00#8 := by
  cases h with
  | compared | identified => exact absurd herr (by decide)
  | encoded | decoded | segmented | unencodable | malformed | limitTooSmall => rfl

/-- Settles O46, by what the command can leave. -/
theorem resultRegisterIsWrittenByEveryCommand : Obligations.ResultRegisterIsWrittenByEveryCommand := by
  constructor
  · intro i s t h
    obtain ⟨segs, text, r, v, hleaves, rfl⟩ := exec_next h
    obtain ⟨hssplit, hdcode, hother⟩ := hleaves.result_of_op
    exact ⟨hssplit, hdcode, hother, hleaves.result_of_error⟩
  · intro cw s t h herr
    obtain ⟨i, segs, text, r, v, hleaves, rfl⟩ | rfl := issue_next h
    · exact hleaves.result_of_error herr
    · rfl

/-! ### `STATUS` (R27) -/

/-- The five values a command can leave in `STATUS` have the fields of rule R27. -/
theorem status_fields_of_mem :
    ∀ v ∈ [0x80#8, 0xC1#8, 0xC2#8, 0xC3#8, 0xC4#8], statusDone v = true ∧ statusReserved v = 0#3 ∧
      (statusErrcode v ≠ 0#3 ↔ statusErr v = true) := by
  decide

theorem CommandLeaves.status_mem {i : Instr} {segs : List (List Octet)} {text : Text} {r v : BitVec 8}
    (h : CommandLeaves i segs text r v) : v ∈ [0x80#8, 0xC1#8, 0xC2#8, 0xC3#8, 0xC4#8] := by
  cases h <;> simp

theorem issue_status_mem {cw : CommandWord} {s t : State} (h : issue cw s = .next t) :
    t.status ∈ [0x80#8, 0xC1#8, 0xC2#8, 0xC3#8, 0xC4#8] := by
  obtain ⟨i, segs, text, r, v, hleaves, rfl⟩ | rfl := issue_next h
  · exact hleaves.status_mem
  · simp

/-- A write of `TIN_LEN` changes nothing but `TIN`, its length register and its epoch (R22). -/
theorem setTinLen_frame (n : Nat) (s : State) : setTinLen n s =
    { s with tin := (setTinLen n s).tin, tinLen := n, tinEpoch := (setTinLen n s).tinEpoch } := by
  unfold setTinLen
  split <;> rfl

/-- A write of `BIN_LEN` changes nothing but `BIN`, its length register and its epoch (R23). -/
theorem setBinLen_frame (n : Nat) (s : State) : setBinLen n s =
    { s with bin := (setBinLen n s).bin, binLen := n, binEpoch := (setBinLen n s).binEpoch } := by
  unfold setBinLen
  split <;> rfl

theorem hostMove_status {m : HostMove} {s t : State} (hm : m ≠ .reset) (h : hostMove m s = .next t) :
    t.status = s.status := by
  cases m with
  | writeTin _ _ | writeBin _ _ | read _ =>
    obtain ⟨-, rfl⟩ := guarded_next h
    rfl
  | writeTinLen n =>
    obtain ⟨-, rfl⟩ := guarded_next h
    rw [setTinLen_frame]
  | writeBinLen n =>
    obtain ⟨-, rfl⟩ := guarded_next h
    rw [setBinLen_frame]
  | reset => exact absurd rfl hm

/-- Settles O47: a command leaves one of five values of `STATUS`, and the moves of the host but reset leave
it alone. -/
theorem statusRegisterFields : Obligations.StatusRegisterFields := by
  refine ⟨fun s t cw rest hp hn => ?_, fun s t m hm hn => hostMove_status hm hn, rfl, rfl, rfl, rfl, rfl⟩
  rw [step_of_pending_command hp] at hn
  have hmem := issue_status_mem hn
  obtain ⟨hdone, hreserved, hcode⟩ := status_fields_of_mem _ hmem
  exact ⟨hdone, hreserved, hcode, hmem⟩

/-! ### The operands and their length registers (R22, R23, R61) -/

theorem readTin_eq (s : State) (i : Nat) :
    readTin s i = (Memory.lookup s.tin i).getD (Config.unspecText s.tinEpoch i) := by
  unfold readTin
  cases Memory.lookup s.tin i <;> rfl

theorem readBin_eq (s : State) (i : Nat) :
    readBin s i = (Memory.lookup s.bin i).getD (Config.unspecOctet s.binEpoch i) := by
  unfold readBin
  cases Memory.lookup s.bin i <;> rfl

theorem textOperand_getElem? (s : State) (i : Nat) :
    (textOperand s)[i]? = if i < s.tinLen then some (readTin s i) else none := by
  by_cases hi : i < s.tinLen
  · simp [textOperand, hi]
  · simp [textOperand, hi]

theorem byteOperand_getElem? (s : State) (i : Nat) :
    (byteOperand s)[i]? = if i < s.binLen then some (readBin s i) else none := by
  by_cases hi : i < s.binLen
  · simp [byteOperand, hi]
  · simp [byteOperand, hi]

/-- Settles O51, by the element of each operand at an index. -/
theorem operandsAreTheElementsBelowTheLength : Obligations.OperandsAreTheElementsBelowTheLength := by
  intro s i
  rw [textOperand_getElem?, byteOperand_getElem?, readTin_eq, readBin_eq]
  exact ⟨rfl, rfl⟩

/-- A write of `TIN_LEN` keeps the elements stored below it (log entry 4). -/
theorem lookup_setTinLen {n i : Nat} (hi : i < n) (s : State) :
    Memory.lookup (setTinLen n s).tin i = Memory.lookup s.tin i := by
  unfold setTinLen
  split
  · simp [Memory.lookup_below, hi]
  · rfl

/-- A write of `BIN_LEN` keeps the octets stored below it (log entry 4). -/
theorem lookup_setBinLen {n i : Nat} (hi : i < n) (s : State) :
    Memory.lookup (setBinLen n s).bin i = Memory.lookup s.bin i := by
  unfold setBinLen
  split
  · simp [Memory.lookup_below, hi]
  · rfl

/-- Settles O54, by what a write of a length register keeps and what it leaves unchanged. -/
theorem lengthWriteKeepsTheStoredElementsBelow : Obligations.LengthWriteKeepsTheStoredElementsBelow := by
  intro s n
  refine ⟨setTinLen n s, setBinLen n s, rfl, rfl, setTinLen_frame n s, setBinLen_frame n s,
    fun i v hi hv => ?_, fun i v hi hv => ?_⟩
  · have hlen : (setTinLen n s).tinLen = n := by rw [setTinLen_frame]
    rw [textOperand_getElem?, hlen, if_pos hi, readTin_eq, lookup_setTinLen hi, hv, Option.getD_some]
  · have hlen : (setBinLen n s).binLen = n := by rw [setBinLen_frame]
    rw [byteOperand_getElem?, hlen, if_pos hi, readBin_eq, lookup_setBinLen hi, hv, Option.getD_some]

/-! ### The invariant at reset (R34, R230) -/

/-- Settles O58: nothing is stored, every length is 0 and no command word waits. -/
theorem invariantHoldsAtReset : Obligations.InvariantHoldsAtReset where
  tinWf := Memory.nil_wf
  binWf := Memory.nil_wf
  tinCapacity := by simp [State.reset]
  binCapacity := by simp [State.reset]
  tinLenCapacity := Nat.zero_le _
  binLenCapacity := Nat.zero_le _
  segCntAgrees := rfl
  segLenAgrees := rfl
  tLenAgrees := rfl
  statusLegal := by decide
  resultLegal := by decide
  emptyUnlessOk _ := ⟨rfl, rfl, rfl⟩
  oneOutput := .inl rfl
  segmentCapacity := Nat.zero_le _
  octetCapacity := Nat.zero_le _
  textCapacity := Nat.zero_le _
  textScalar := by simp [State.reset]
  onePortWidth := ⟨1, le_rfl, by simp [State.reset]⟩

end Sys2Proof.Machine

/-! PROOFS. The host's accesses to the buffers and registers (20_memory.md): what an element reads as after a
write of one element, and what each read of the host gives. -/

namespace Sys2Proof.Machine

/-! ### A write of one element (R53, R62) -/

/-- Read after write, for the index written and every other. -/
theorem Memory.lookup_write {w : Nat} (m : Memory w) (i j : Nat) (v : BitVec w) :
    Memory.lookup (Memory.write m i v) j = if j = i then some v else Memory.lookup m j := by
  split
  next hji => rw [hji, Memory.lookup_write_self]
  next hji => exact Memory.lookup_write_other m v hji

theorem readTin_write (s : State) (i j : Nat) (v : CodePoint) :
    readTin { s with tin := Memory.write s.tin i v } j = if j = i then v else readTin s j := by
  rw [readTin_eq, readTin_eq, Memory.lookup_write]
  split <;> rfl

theorem readBin_write (s : State) (i j : Nat) (v : Octet) :
    readBin { s with bin := Memory.write s.bin i v } j = if j = i then v else readBin s j := by
  rw [readBin_eq, readBin_eq, Memory.lookup_write]
  split <;> rfl

/-- Settles O52, by read after write in each input buffer. -/
theorem elementWriteChangesOneElement : Obligations.ElementWriteChangesOneElement :=
  ⟨fun s i v => ⟨Memory.write s.tin i v, rfl, fun j => readTin_write s i j v⟩,
    fun s i v => ⟨Memory.write s.bin i v, rfl, fun j => readBin_write s i j v⟩⟩

/-! ### The reads of the host (R34, R35, R53) -/

/-- The guard of a read by the length of the list it reads is the list's own: past its end there is no
element. -/
theorem ite_lt_length_getElem? {α β : Type} {f : Option α → Option β} (hf : f none = none) (l : List α)
    (k : Nat) : (if k < l.length then f l[k]? else none) = f l[k]? := by
  split
  next => rfl
  next hk => rw [List.getElem?_eq_none (Nat.le_of_not_lt hk), hf]

theorem Inv.hostRead_segLen {s : State} (h : Inv s) (k : Nat) :
    hostRead (.segLen k) s = (s.bout[k]?).map List.length := by
  rw [hostRead, h.segCntAgrees, h.segLenAgrees, List.getElem?_map]
  exact ite_lt_length_getElem? rfl s.bout k

theorem Inv.hostRead_bout {s : State} (h : Inv s) (k j : Nat) :
    hostRead (.bout k j) s = ((s.bout[k]?).bind (fun g => g[j]?)).map BitVec.toNat := by
  rw [hostRead, h.segCntAgrees]
  exact ite_lt_length_getElem? (f := fun g => (g.bind (fun g => g[j]?)).map BitVec.toNat) rfl s.bout k

theorem Inv.hostRead_tout {s : State} (h : Inv s) (i : Nat) :
    hostRead (.tout i) s = (s.tout[i]?).map BitVec.toNat := by
  rw [hostRead, h.tLenAgrees]
  exact ite_lt_length_getElem? rfl s.tout i

theorem hostRead_tin (s : State) (i : Nat) :
    hostRead (.tin i) s = ((textOperand s)[i]?).map BitVec.toNat := by
  rw [hostRead, textOperand_getElem?]
  split <;> rfl

theorem hostRead_bin (s : State) (i : Nat) :
    hostRead (.bin i) s = ((byteOperand s)[i]?).map BitVec.toNat := by
  rw [hostRead, byteOperand_getElem?]
  split <;> rfl

/-- Settles O55: the registers read as they stand, and the invariant ties each length register to the list
it counts. -/
theorem hostReadsHaveNoEffect : Obligations.HostReadsHaveNoEffect := by
  refine ⟨fun r s => rfl, fun s h => ?_⟩
  have hsegCnt : hostRead .segCnt s = some s.bout.length := congrArg some h.segCntAgrees
  have htLen : hostRead .tLen s = some s.tout.length := congrArg some h.tLenAgrees
  have htinLen : hostRead .tinLen s = some (textOperand s).length := by rw [textOperand_length, hostRead]
  have hbinLen : hostRead .binLen s = some (byteOperand s).length := by rw [byteOperand_length, hostRead]
  exact ⟨h.hostRead_segLen, h.hostRead_bout, h.hostRead_tout, hostRead_tin s, hostRead_bin s,
    hsegCnt, htLen, htinLen, hbinLen, rfl, rfl⟩

end Sys2Proof.Machine

/-! PROOFS. The command words (30_encoding.md): decoding and encoding are inverse, a word is a row's command
exactly when its opcode byte is the row's match, and the other opcode bytes raise IllegalCommand. After it the
pseudo-command SEND, over what a codec supplies to ENC, SSPLIT and ESPLIT. -/

namespace Sys2Proof.Machine

/-! ### A command word is its opcode byte and its limit (R70) -/

@[simp] theorem codec_instrOf (c : Codec) (o : Op) (limit : Nat) : (Instr.of c o limit).codec = c := by
  cases c <;> cases o <;> rfl

@[simp] theorem op_instrOf (c : Codec) (o : Op) (limit : Nat) : (Instr.of c o limit).op = o := by
  cases c <;> cases o <;> rfl

@[simp] theorem limit_instrOf (c : Codec) (o : Op) (limit : Nat) : (Instr.of c o limit).limit = limit := by
  cases c <;> cases o <;> rfl

theorem limitField_lt {lw : Nat} (cw : BitVec (lw + 8)) : limitField cw < 2 ^ lw := BitVec.isLt _

/-- A limit read from a word fits the width of its LIMIT field (R70). -/
theorem wfAt_of_limitField {lw : Nat} {cw : BitVec (lw + 8)} {i : Instr} (h : limitField cw = i.limit) :
    i.wfAt lw = true := by
  simp [Instr.wfAt, ← h, limitField_lt]

/-- A byte is two nibbles exactly when they are its own. -/
theorem eq_append_iff_nibbles (b : BitVec 8) (hi lo : BitVec 4) :
    b = hi ++ lo ↔ b.extractLsb' 4 4 = hi ∧ b.extractLsb' 0 4 = lo := by
  constructor
  · rintro rfl
    exact ⟨BitVec.extractLsb'_append_eq_left, BitVec.extractLsb'_append_eq_right⟩
  · rintro ⟨rfl, rfl⟩
    calc b = b.extractLsb' 0 (4 + 4) := BitVec.extractLsb'_eq_self.symm
      _ = b.extractLsb' 4 4 ++ b.extractLsb' 0 4 :=
        (BitVec.extractLsb'_append_extractLsb'_eq_extractLsb' rfl).symm

theorem opcodeField_eq_append {lw : Nat} (cw : BitVec (lw + 8)) :
    opcodeField cw = codecField cw ++ opField cw :=
  (eq_append_iff_nibbles ..).mpr ⟨(codecField_eq_opcodeField cw).symm, (opField_eq_opcodeField cw).symm⟩

/-- No bit of a word lies outside its limit and its opcode byte. -/
theorem limitField_append_opcodeField {lw : Nat} (cw : BitVec (lw + 8)) :
    BitVec.ofNat lw (limitField cw) ++ opcodeField cw = cw := by
  ext b hb
  simp only [limitField, opcodeField, BitVec.ofNat_toNat, BitVec.setWidth_eq, BitVec.getElem_append,
    BitVec.getElem_extractLsb', Nat.zero_add, dite_eq_ite]
  split
  · exact BitVec.getLsbD_eq_getElem hb
  next hb8 => rw [Nat.add_sub_cancel' (Nat.le_of_not_lt hb8), BitVec.getLsbD_eq_getElem hb]

theorem codecOfField_eq_some {n : BitVec 4} {c : Codec} (h : codecOfField n = some c) : n = codecNibble c := by
  unfold codecOfField at h
  split_ifs at h <;> cases h <;> assumption

theorem opOfField_eq_some {n : BitVec 4} {o : Op} (h : opOfField n = some o) : n = opNibble o := by
  unfold opOfField at h
  split_ifs at h <;> cases h <;> assumption

/-! ### Decoding and encoding (R70, R73) -/

/-- A word decodes to a command exactly when it has the command's opcode byte and its limit. -/
theorem decodeAt_eq_ok_iff {lw : Nat} {cw : BitVec (lw + 8)} {i : Instr} :
    decodeAt lw cw = .ok i ↔ opcodeField cw = opcodeOf i ∧ limitField cw = i.limit := by
  constructor
  · intro h
    obtain ⟨c, o, hc, ho, hd⟩ | ⟨r, hd, -⟩ := decodeAt_cases cw
    · obtain rfl := Except.ok.inj (hd.symm.trans h)
      simp [opcodeField_eq_append, codecOfField_eq_some hc, opOfField_eq_some ho, opcodeOf]
    · cases hd.symm.trans h
  · rintro ⟨hopc, hlim⟩
    have hwf : i.wfAt lw = true := wfAt_of_limitField hlim
    have hsame : decode ⟨lw, cw⟩ = decode (encode lw i) :=
      decode_congr (hopc.trans (opcodeField_encodeAt lw i).symm) (hlim.trans (limitField_encodeAt hwf).symm)
    exact hsame.trans (decode_encode hwf)

/-- Settles O1: the decoder undoes the encoder, and a word has no bits but its limit and its opcode byte. -/
theorem decodeAndEncodeAgree : Obligations.DecodeAndEncodeAgree := by
  refine ⟨fun lw i hwf => decodeAt_encodeAt hwf, fun lw cw i h => ?_⟩
  obtain ⟨hopc, hlim⟩ := decodeAt_eq_ok_iff.mp h
  refine ⟨wfAt_of_limitField hlim, ?_⟩
  rw [encodeAt, ← hopc, ← hlim, limitField_append_opcodeField]

/-! ### The opcode map (R73) -/

/-- The match of a row is the opcode byte of its codec and its operation, and its mask is that byte. -/
theorem row_of_mem_opcodeTable :
    ∀ r ∈ opcodeTable, r.mask = 0xFF#8 ∧ r.pattern = codecNibble r.codec ++ opNibble r.op := by decide

/-- Each operation of each codec has a row. -/
theorem exists_row (c : Codec) (o : Op) : ∃ r ∈ opcodeTable, r.codec = c ∧ r.op = o := by
  cases c <;> cases o <;> decide

/-- Masking a word keeps its opcode byte. -/
theorem and_opcodeMask {lw : Nat} (cw : BitVec (lw + 8)) :
    cw &&& (0xFF#8).setWidth (lw + 8) = (opcodeField cw).setWidth (lw + 8) := by
  have hmask (b : Nat) : (0xFF#8).getLsbD b = decide (b < 8) := BitVec.getLsbD_allOnes
  ext b hb
  rw [BitVec.getElem_and, BitVec.getElem_setWidth, BitVec.getElem_setWidth, hmask]
  by_cases h8 : b < 8 <;> simp [opcodeField, h8, BitVec.getLsbD_eq_getElem hb]

/-- Widening to a word loses nothing of an opcode byte. -/
theorem setWidth_word_inj {lw : Nat} {a b : BitVec 8} :
    a.setWidth (lw + 8) = b.setWidth (lw + 8) ↔ a = b := by
  refine ⟨fun h => ?_, congrArg _⟩
  have hnat := congrArg (BitVec.setWidth 8) h
  simpa using hnat

theorem matches_iff {lw : Nat} (cw : BitVec (lw + 8)) {r : OpcodeRow} (hr : r ∈ opcodeTable) :
    r.matches cw = true ↔ opcodeField cw = r.pattern := by
  rw [OpcodeRow.matches, decide_eq_true_iff, (row_of_mem_opcodeTable r hr).1, and_opcodeMask, setWidth_word_inj]

/-- Settles O2: both sides say that the opcode byte is the row's match. -/
theorem decoderFollowsMaskAndMatch : Obligations.DecoderFollowsMaskAndMatch := by
  intro lw cw r hr
  rw [matches_iff cw hr, decodeAt_eq_ok_iff, (row_of_mem_opcodeTable r hr).2]
  simp [opcodeOf]

/-! ### The reserved opcode bytes (R74) -/

/-- The reserved CODEC nibbles. -/
theorem forall_ne_codecNibble_iff (n : BitVec 4) : (∀ c, n ≠ codecNibble c) ↔ 3 ≤ n.toNat := by
  have hcases : (∀ c, n ≠ codecNibble c) ↔ n ≠ 0#4 ∧ n ≠ 1#4 ∧ n ≠ 2#4 :=
    ⟨fun h => ⟨h .g7u, h .g7p, h .ucs2⟩, fun ⟨h0, h1, h2⟩ c => by cases c <;> assumption⟩
  rw [hcases]
  bv_omega

/-- The reserved OP nibbles. -/
theorem forall_ne_opNibble_iff (n : BitVec 4) : (∀ o, n ≠ opNibble o) ↔ 5 ≤ n.toNat := by
  have hcases : (∀ o, n ≠ opNibble o) ↔ n ≠ 0#4 ∧ n ≠ 1#4 ∧ n ≠ 2#4 ∧ n ≠ 3#4 ∧ n ≠ 4#4 :=
    ⟨fun h => ⟨h .enc, h .dec, h .ssplit, h .esplit, h .dcode⟩,
      fun ⟨h0, h1, h2, h3, h4⟩ o => by cases o <;> assumption⟩
  rw [hcases]
  bv_omega

/-- An opcode byte is outside the map exactly when no codec and operation have it. -/
theorem outside_opcodeTable_iff (b : BitVec 8) :
    (∀ r ∈ opcodeTable, b ≠ r.pattern) ↔ ∀ c o, b ≠ codecNibble c ++ opNibble o := by
  constructor
  · intro h c o
    obtain ⟨r, hr, rfl, rfl⟩ := exists_row c o
    exact (row_of_mem_opcodeTable r hr).2 ▸ h r hr
  · intro h r hr
    exact (row_of_mem_opcodeTable r hr).2 ▸ h r.codec r.op

/-- An opcode byte is outside the map exactly when one of its nibbles is reserved. -/
theorem outside_opcodeTable_iff_nibbles (b : BitVec 8) :
    (∀ r ∈ opcodeTable, b ≠ r.pattern) ↔
      (3 ≤ (b.extractLsb' 4 4).toNat ∨ 5 ≤ (b.extractLsb' 0 4).toNat) := by
  rw [outside_opcodeTable_iff, ← forall_ne_codecNibble_iff, ← forall_ne_opNibble_iff]
  simp only [ne_eq, eq_append_iff_nibbles, not_and_or, forall_or_left, forall_or_right]

/-- A word with a byte outside the map decodes to no command, so a write of it raises IllegalCommand. -/
theorem issue_of_outside_opcodeTable {cw : CommandWord}
    (h : ∀ r ∈ opcodeTable, opcodeField cw.bits ≠ r.pattern) (s : State) :
    issue cw s = .next (commandEnd [] [] 0x00#8 0xC4#8 s) := by
  obtain ⟨i, hi, -⟩ | ⟨r, -, hs⟩ := issue_cases cw s
  · exact absurd (decodeAt_eq_ok_iff.mp hi).1 ((outside_opcodeTable_iff _).mp h i.codec i.op)
  · exact hs

/-- The map has 15 of the 256 bytes, so 241 lie outside it. -/
theorem count_outside_opcodeTable :
    ((List.range 256).filter (fun n => opcodeTable.all (fun r => decide (BitVec.ofNat 8 n ≠ r.pattern)))).length
      = 241 := by
  have hsplit := List.length_eq_length_filter_add (l := List.range 256)
    fun n => opcodeTable.all (fun r => decide (BitVec.ofNat 8 n ≠ r.pattern))
  have hmap : ((List.range 256).filter
      (fun n => !opcodeTable.all (fun r => decide (BitVec.ofNat 8 n ≠ r.pattern)))).length = 15 := by decide
  rw [hmap, List.length_range] at hsplit
  omega

/-- Settles O3, by the nibbles of a byte outside the map and by what a write of such a word does. -/
theorem reservedOpcodeRaisesIllegalCommand : Obligations.ReservedOpcodeRaisesIllegalCommand := by
  refine ⟨outside_opcodeTable_iff_nibbles, count_outside_opcodeTable, fun s cw rest hp hout => ?_⟩
  rw [step_of_pending_command hp, issue_of_outside_opcodeTable hout]

/-- Settles O4, by running the decoder on each word. -/
theorem commandWordsOfTheSpecDecode : Obligations.CommandWordsOfTheSpecDecode := by
  unfold Obligations.CommandWordsOfTheSpecDecode
  decide

/-! ### What a codec supplies to ENC, SSPLIT and ESPLIT (R11) -/

/-- The encoding that ENC writes (R110, R136, R164). -/
def codecEncode : Codec → Text → Except ErrorKind (List Octet)
  | .g7u => fun t => (encodeSeptets t).map (List.map septetOctet)
  | .g7p => fun t => (encodeSeptets t).map pack
  | .ucs2 => encodeU

/-- The size that SSPLIT compares with the limit (R112, R138, R166). -/
def codecSize : Codec → Text → Except ErrorKind Nat
  | .g7u => septetCount
  | .g7p => fun t => (septetCount t).map packedLen
  | .ucs2 => byteLen

/-- The segments that ESPLIT writes (R113, R139, R167). -/
def codecSplit : Codec → Nat → Text → Except ErrorKind (List (List Octet))
  | .g7u => splitG7u
  | .g7p => splitG7p
  | .ucs2 => splitUcs2

theorem exec_instrOf_enc (c : Codec) (limit : Nat) (s : State) :
    exec (Instr.of c .enc limit) s = encodeCommand (codecEncode c) s := by
  cases c <;> rfl

theorem exec_instrOf_ssplit (c : Codec) (limit : Nat) (s : State) :
    exec (Instr.of c .ssplit limit) s = shouldSplitCommand (codecSize c) limit s := by
  cases c <;> rfl

theorem exec_instrOf_esplit (c : Codec) (limit : Nat) (s : State) :
    exec (Instr.of c .esplit limit) s = splitCommand (codecSplit c limit) s := by
  cases c <;> rfl

/-- The size that SSPLIT compares is the octet count of what ENC would write. -/
theorem codecSize_eq (c : Codec) (t : Text) : codecSize c t = (codecEncode c t).map List.length := by
  cases c with
  | g7u => simp only [codecSize, codecEncode, septetCount]; cases encodeSeptets t <;> simp [Except.map]
  | g7p => simp only [codecSize, codecEncode, septetCount]; cases encodeSeptets t <;> simp [Except.map]
  | ucs2 => rfl

/-! ### No segment of ESPLIT exceeds the limit (R182) -/

/-- The walk closes only segments whose cost fits: a segment grows only while it does, and a unit that fits
alone closes no empty segment. -/
theorem segmentWalk_fits {υ : Type} {cost : υ → Nat} {fits : Nat → Bool} {U : List υ} :
    ∀ {segs out : List (List υ)} {g : List υ} {cur : Nat},
      (∀ x ∈ segs, fits (x.map cost).sum = true) → cur = (g.map cost).sum → (g ≠ [] → fits cur = true) →
      segmentWalk cost fits U segs g cur = .ok out → ∀ x ∈ out, fits (x.map cost).sum = true := by
  induction U with
  | nil =>
    rintro segs out g _ hsegs rfl hg h
    obtain rfl := Except.ok.inj h
    cases g with
    | nil => simpa using hsegs
    | cons v g => simpa [or_imp, forall_and] using ⟨hsegs, hg (List.cons_ne_nil v g)⟩
  | cons u us ih =>
    rintro segs out g _ hsegs rfl hg h
    obtain ⟨hu, ⟨hfull, hw⟩ | ⟨hroom, hw⟩⟩ := segmentWalk_cons_ok h
    · have hclosed : fits (g.map cost).sum = true := hg fun hnil => by simp [hnil, hu] at hfull
      exact ih (by simpa [or_imp, forall_and] using ⟨hsegs, hclosed⟩) (by simp) (fun _ => hu) hw
    · exact ih hsegs (by simp) (fun _ => hroom) hw

/-- What the three ESPLIT commands share: each segment is emitted from units whose elements fit. -/
theorem exists_fits_of_mem_split {β : Type} {units : Text → Except ErrorKind (List (List β))}
    {fits : Nat → Bool} {emit : List (List β) → List Octet} {t : Text} {segs : List (List Octet)}
    (h : (segmentText units fits t).map (List.map emit) = .ok segs) {b : List Octet} (hb : b ∈ segs) :
    ∃ g, emit g = b ∧ fits g.flatten.length = true := by
  obtain ⟨out, hout, rfl⟩ := exceptMap_ok h
  obtain ⟨U, -, hseg⟩ := segmentText_ok hout
  obtain ⟨g, hg, rfl⟩ := List.mem_map.mp hb
  refine ⟨g, rfl, ?_⟩
  rw [List.length_flatten]
  exact segmentWalk_fits (by simp) rfl (by simp) hseg g hg

/-- The filler leaves the packed length as it is (R135). -/
theorem pack_withFiller_length (S : List Septet) : (pack (withFiller S)).length = packedLen S.length := by
  simp only [pack_length, withFiller, List.length_append, List.length_replicate, fill, packedLen, ceilDiv]
  split <;> omega

theorem codecSplit_length_le {c : Codec} {limit : Nat} {t : Text} {segs : List (List Octet)}
    (h : codecSplit c limit t = .ok segs) : ∀ b ∈ segs, b.length ≤ limit := by
  intro b hb
  cases c with
  | g7u =>
    obtain ⟨g, rfl, hfits⟩ := exists_fits_of_mem_split h hb
    simpa only [List.length_map, fitsOctets, decide_eq_true_eq] using hfits
  | g7p =>
    obtain ⟨g, rfl, hfits⟩ := exists_fits_of_mem_split h hb
    simpa only [pack_withFiller_length, fitsPacked, decide_eq_true_eq] using hfits
  | ucs2 =>
    obtain ⟨g, rfl, hfits⟩ := exists_fits_of_mem_split h hb
    simpa only [fitsOctets, decide_eq_true_eq] using hfits

/-! ### The pseudo-command SEND (R78, R189) -/

@[simp] theorem statusErr_errorStatus (e : ErrorKind) : statusErr (errorStatus e) = true := by
  cases e <;> rfl

theorem statusErr_ok : statusErr 0x80#8 = false := rfl

/-- What SSPLIT can do: raise an error, or compare the size of what ENC would write. -/
theorem ssplit_cases (c : Codec) (limit : Nat) (s : State) :
    ∃ t, exec (Instr.of c .ssplit limit) s = .next t ∧
      ((statusErr t.status = true ∧ t.bout = []) ∨
        (statusErr t.status = false ∧ ∃ b, codecEncode c (textOperand t) = .ok b ∧
          t.result = if limit < b.length then 0x01#8 else 0x00#8)) := by
  rw [exec_instrOf_ssplit, shouldSplitCommand_eq, codecSize_eq]
  cases h : codecEncode c (textOperand s) with
  | error e => exact ⟨_, rfl, .inl ⟨statusErr_errorStatus e, rfl⟩⟩
  | ok b => exact ⟨_, rfl, .inr ⟨statusErr_ok, b, h, rfl⟩⟩

theorem enc_next {c : Codec} {s : State} {b : List Octet} (h : codecEncode c (textOperand s) = .ok b)
    (limit : Nat) : ∃ u, exec (Instr.of c .enc limit) s = .next u ∧ u.bout = [b] := by
  rw [exec_instrOf_enc, encodeCommand_eq, h]
  exact ⟨_, rfl, rfl⟩

/-- ESPLIT completes, and leaves no segment over the limit: none at all when it raises. -/
theorem esplit_next (c : Codec) (limit : Nat) (s : State) :
    ∃ u, exec (Instr.of c .esplit limit) s = .next u ∧ ∀ g ∈ u.bout, g.length ≤ limit := by
  rw [exec_instrOf_esplit, splitCommand_eq]
  cases h : codecSplit c limit (textOperand s) with
  | error e => exact ⟨_, rfl, by simp⟩
  | ok segs => exact ⟨_, rfl, codecSplit_length_le h⟩

section send
variable {c : Codec} {limit : Nat} {s t : State}

theorem send_of_error (h : exec (Instr.of c .ssplit limit) s = .next t) (herr : statusErr t.status = true) :
    send c limit s = .next t := by
  simp [send, sendFollowUp, h, herr]

theorem send_of_exceeds (h : exec (Instr.of c .ssplit limit) s = .next t) (hok : statusErr t.status = false)
    (hresult : t.result = 0x01#8) : send c limit s = exec (Instr.of c .esplit limit) t := by
  simp [send, sendFollowUp, h, hok, hresult]

theorem send_of_fits (h : exec (Instr.of c .ssplit limit) s = .next t) (hok : statusErr t.status = false)
    (hresult : t.result = 0x00#8) : send c limit s = exec (Instr.of c .enc 0) t := by
  simp [send, sendFollowUp, h, hok, hresult]

end send

/-- Settles O56: SSPLIT raises, or finds the size over the limit, where ESPLIT keeps every segment within it,
or finds it within, where ENC writes one segment of that size. -/
theorem sendLeavesSegmentsWithinTheLimit : Obligations.SendLeavesSegmentsWithinTheLimit := by
  intro c limit s
  obtain ⟨t, ht, ⟨herr, hbout⟩ | ⟨hok, b, hb, hresult⟩⟩ := ssplit_cases c limit s
  · exact ⟨t, t, ht, send_of_error ht herr, fun _ => rfl, by simp [herr], by simp [herr], by simp [hbout]⟩
  · split at hresult
    next =>
      obtain ⟨u, hu, hlen⟩ := esplit_next c limit t
      exact ⟨t, u, ht, (send_of_exceeds ht hok hresult).trans hu, by simp [hok], fun _ _ => hu,
        by simp [hresult], hlen⟩
    next hfits =>
      obtain ⟨u, hu, hbout⟩ := enc_next hb 0
      exact ⟨t, u, ht, (send_of_fits ht hok hresult).trans hu, by simp [hok], by simp [hresult],
        fun _ _ => hu, by simpa [hbout] using hfits⟩

end Sys2Proof.Machine

/-! PROOFS. The alphabet tables and the septet lookup (40_alphabet_tables.md). First the two tables, each a
one to one relation between septets and characters; then the unit of a character and the units of a text; then
the decoder, which takes one unit off the front of the octets for each character of the text. -/

namespace Sys2Proof.Machine

/-! ### The Basic table (R91) -/

/-- `BASIC_ENC` undoes `BASIC_DEC`, read off the table at each of its 128 codes. -/
theorem basicDec_all_basicEnc :
    ∀ c : Septet, (basicDec c).all (fun cp => basicEnc cp == some c) = true := by decide

theorem isSome_basicDec_iff : ∀ c : Septet, (basicDec c).isSome = true ↔ c ≠ escSeptet := by decide

/-- The search answers the index of an entry that is `cp`, counted from `n`. -/
theorem getElem?_of_indexOfEntry {cp : CodePoint} {l : List (Option CodePoint)} {n k : Nat}
    (h : indexOfEntry cp l n = some k) : ∃ i, l[i]? = some (some cp) ∧ n + i = k := by
  induction l generalizing n with
  | nil => cases h
  | cons e es ih =>
    rw [indexOfEntry] at h
    split at h
    next he => exact ⟨0, congrArg some he, Option.some.inj h⟩
    next =>
      obtain ⟨i, hi, hk⟩ := ih h
      exact ⟨i + 1, hi, by omega⟩

/-- `BASIC_ENC` is the inverse of `BASIC_DEC` (R91). -/
theorem basicEnc_eq_some_iff {cp : CodePoint} {c : Septet} : basicEnc cp = some c ↔ basicDec c = some cp := by
  constructor
  · intro h
    obtain ⟨k, hk, rfl⟩ := Option.map_eq_some_iff.mp h
    obtain ⟨i, hi, rfl⟩ := getElem?_of_indexOfEntry hk
    have hlt : i < 128 := (List.getElem?_eq_some_iff.mp hi).1
    have hcode : (BitVec.ofNat 7 (0 + i)).toNat = i := by
      rw [BitVec.toNat_ofNat, Nat.zero_add, Nat.mod_eq_of_lt hlt]
    rw [basicDec, hcode, hi, Option.join_some]
  · intro h
    simpa [h] using basicDec_all_basicEnc c

theorem inBasic_iff {cp : CodePoint} : inBasic cp ↔ (basicEnc cp).isSome = true := by
  simp only [inBasic, Option.isSome_iff_exists, basicEnc_eq_some_iff]

/-! ### The Extension table (R92) -/

/-- Each entry of the Extension table is the first one for its code and for its character, and its character is
not in the Basic table (R94 (c)). -/
theorem romExt_all_entries :
    romExt.all (fun p => extDec p.1 == some p.2 && extEnc p.2 == some p.1 && (basicEnc p.2).isNone) = true := by
  decide

theorem romExt_entry {c : Septet} {cp : CodePoint} (h : (c, cp) ∈ romExt) :
    extDec c = some cp ∧ extEnc cp = some c ∧ basicEnc cp = none := by
  simpa [and_assoc] using List.all_eq_true.mp romExt_all_entries _ h

theorem extDec_eq_some_iff {c : Septet} {cp : CodePoint} : extDec c = some cp ↔ (c, cp) ∈ romExt := by
  refine ⟨fun h => ?_, fun h => (romExt_entry h).1⟩
  obtain ⟨p, hp, rfl⟩ := Option.map_eq_some_iff.mp h
  obtain rfl : p.1 = c := by simpa using List.find?_some hp
  exact List.mem_of_find?_eq_some hp

/-- `EXT_ENC` is the inverse of `EXT_DEC` (R92). -/
theorem extEnc_eq_some_iff {cp : CodePoint} {c : Septet} : extEnc cp = some c ↔ extDec c = some cp := by
  rw [extDec_eq_some_iff]
  refine ⟨fun h => ?_, fun h => (romExt_entry h).2.1⟩
  obtain ⟨p, hp, rfl⟩ := Option.map_eq_some_iff.mp h
  obtain rfl : p.2 = cp := by simpa using List.find?_some hp
  exact List.mem_of_find?_eq_some hp

theorem inExtension_iff {cp : CodePoint} : inExtension cp ↔ (extEnc cp).isSome = true := by
  simp only [inExtension, Option.isSome_iff_exists, extEnc_eq_some_iff]

/-- No character is in both tables (R94 (c)). -/
theorem basicEnc_of_extDec {c : Septet} {cp : CodePoint} (h : extDec c = some cp) : basicEnc cp = none := by
  obtain ⟨-, -, hbasic⟩ := romExt_entry (extDec_eq_some_iff.mp h)
  exact hbasic

theorem extEnc_of_basicDec {c : Septet} {cp : CodePoint} (h : basicDec c = some cp) : extEnc cp = none := by
  refine Option.eq_none_iff_forall_ne_some.mpr fun d hd => ?_
  have hnone := basicEnc_of_extDec (extEnc_eq_some_iff.mp hd)
  cases (basicEnc_eq_some_iff.mpr h).symm.trans hnone

/-- Settles O19: each property is read off the tables through their inverses. -/
theorem alphabetTablesHaveTheirProperties : Obligations.AlphabetTablesHaveTheirProperties := by
  refine ⟨isSome_basicDec_iff, ?basicInjective, ?extInjective, ?disjoint, ⟨rfl, rfl⟩, rfl, ?scalar, by decide⟩
  case basicInjective =>
    intro c d hcd hc
    obtain ⟨cp, hcp⟩ := Option.isSome_iff_exists.mp ((isSome_basicDec_iff c).mpr hc)
    have hd : basicEnc cp = some d := basicEnc_eq_some_iff.mpr (hcd ▸ hcp)
    exact Option.some.inj ((basicEnc_eq_some_iff.mpr hcp).symm.trans hd)
  case extInjective =>
    intro c d cp hc hd
    exact Option.some.inj ((extEnc_eq_some_iff.mpr hc).symm.trans (extEnc_eq_some_iff.mpr hd))
  case disjoint =>
    rintro cp ⟨hbasic, c, hc⟩
    simp [inBasic_iff, basicEnc_of_extDec hc] at hbasic
  case scalar =>
    rintro cp (⟨c, hc⟩ | ⟨c, hc⟩)
    · exact basicDec_scalar hc
    · exact extDec_scalar hc

/-! ### The unit of a character (R93) -/

theorem unit7_of_basicDec {c : Septet} {cp : CodePoint} (h : basicDec c = some cp) : unit7 cp = .ok [c] := by
  rw [unit7, basicEnc_eq_some_iff.mpr h]

theorem unit7_of_extDec {c : Septet} {cp : CodePoint} (h : extDec c = some cp) :
    unit7 cp = .ok [escSeptet, c] := by
  rw [unit7, basicEnc_of_extDec h, extEnc_eq_some_iff.mpr h]

/-- What the lookup of a character can answer: its Basic code, `ESC` and its Extension code, or the error of a
character in neither table. -/
theorem unit7_cases (cp : CodePoint) :
    (∃ c, basicDec c = some cp ∧ unit7 cp = .ok [c]) ∨
    (∃ c, extDec c = some cp ∧ unit7 cp = .ok [escSeptet, c]) ∨
    (¬ inBasic cp ∧ ¬ inExtension cp ∧ unit7 cp = .error .unencodableCharacter) := by
  by_cases hbasic : inBasic cp
  · obtain ⟨c, hc⟩ := hbasic
    exact .inl ⟨c, hc, unit7_of_basicDec hc⟩
  by_cases hext : inExtension cp
  · obtain ⟨c, hc⟩ := hext
    exact .inr (.inl ⟨c, hc, unit7_of_extDec hc⟩)
  · have hbasicEnc : basicEnc cp = none := by simpa [inBasic_iff] using hbasic
    have hextEnc : extEnc cp = none := by simpa [inExtension_iff] using hext
    exact .inr (.inr ⟨hbasic, hext, by rw [unit7, hbasicEnc, hextEnc]⟩)

theorem unit7_eq_ok_iff {cp : CodePoint} {u : List Septet} : unit7 cp = .ok u ↔
    (∃ c, basicDec c = some cp ∧ u = [c]) ∨ (∃ c, extDec c = some cp ∧ u = [escSeptet, c]) := by
  constructor
  · intro h
    obtain ⟨c, hc, hu⟩ | ⟨c, hc, hu⟩ | ⟨-, -, hu⟩ := unit7_cases cp
    · exact .inl ⟨c, hc, Except.ok.inj (h.symm.trans hu)⟩
    · exact .inr ⟨c, hc, Except.ok.inj (h.symm.trans hu)⟩
    · cases h.symm.trans hu
  · rintro (⟨c, hc, rfl⟩ | ⟨c, hc, rfl⟩)
    · exact unit7_of_basicDec hc
    · exact unit7_of_extDec hc

/-- Settles O20: the three answers of the lookup differ in length or are an error, so each tells its table. -/
theorem unitLookupFollowsTheTables : Obligations.UnitLookupFollowsTheTables := by
  refine ⟨fun cp c => ?_, fun cp c => ?_, fun cp e => ⟨fun h => ?_, ?_⟩⟩
  · simp [unit7_eq_ok_iff]
  · simp [unit7_eq_ok_iff, escSeptet]
  · obtain ⟨c, -, hu⟩ | ⟨c, -, hu⟩ | ⟨hbasic, hext, -⟩ := unit7_cases cp
    · cases h.symm.trans hu
    · cases h.symm.trans hu
    · exact ⟨unit7_error h, hbasic, hext⟩
  · rintro ⟨rfl, hbasic, hext⟩
    obtain ⟨c, hc, -⟩ | ⟨c, hc, -⟩ | ⟨-, -, hu⟩ := unit7_cases cp
    · exact absurd ⟨c, hc⟩ hbasic
    · exact absurd ⟨c, hc⟩ hext
    · exact hu

/-- A Basic character counts one septet, an Extension character two (R96). -/
theorem unit7_length {cp : CodePoint} {u : List Septet} (h : unit7 cp = .ok u) :
    u.length = (if (basicEnc cp).isSome then 1 else 0) + 2 * (if (extEnc cp).isSome then 1 else 0) := by
  obtain ⟨c, hc, rfl⟩ | ⟨c, hc, rfl⟩ := unit7_eq_ok_iff.mp h
  · simp [basicEnc_eq_some_iff.mpr hc, extEnc_of_basicDec hc]
  · simp [basicEnc_of_extDec hc, extEnc_eq_some_iff.mpr hc]

/-! ### The septets of a text (R96) -/

theorem encodeSeptets_nil (S : List Septet) : encodeSeptets [] = .ok S ↔ S = [] := by
  simp [encodeSeptets, units7, lookupAll, Except.map, eq_comm]

/-- A text that starts with `cp` has the septets of `cp` and then those of the rest. -/
theorem encodeSeptets_cons {cp : CodePoint} {t : Text} {S : List Septet} :
    encodeSeptets (cp :: t) = .ok S ↔
      ∃ u R, unit7 cp = .ok u ∧ encodeSeptets t = .ok R ∧ S = u ++ R := by
  constructor
  · intro h
    obtain ⟨U, hU, rfl⟩ := exceptMap_ok h
    obtain ⟨u, V, rfl, hu, hV⟩ := (lookupAll_cons unit7 cp t U).mp hU
    exact ⟨u, V.flatten, hu, by rw [encodeSeptets, units7, hV, Except.map], rfl⟩
  · rintro ⟨u, R, hu, hR, rfl⟩
    obtain ⟨V, hV, rfl⟩ := exceptMap_ok hR
    have hU : units7 (cp :: t) = .ok (u :: V) := (lookupAll_cons unit7 cp t _).mpr ⟨u, V, rfl, hu, hV⟩
    rw [encodeSeptets, hU, Except.map, List.flatten_cons]

theorem encodeSeptets_length {t : Text} {S : List Septet} (h : encodeSeptets t = .ok S) :
    S.length = t.countP (fun cp => (basicEnc cp).isSome) + 2 * t.countP (fun cp => (extEnc cp).isSome) := by
  induction t generalizing S with
  | nil => simp [(encodeSeptets_nil S).mp h]
  | cons cp t ih =>
    obtain ⟨u, R, hu, hR, rfl⟩ := encodeSeptets_cons.mp h
    have hunit := unit7_length hu
    have hrest := ih hR
    simp only [List.length_append, List.countP_cons]
    omega

/-- Settles O21: the units by the law of the lookup loop, the count by induction on the text. -/
theorem septetsOfATextAreItsUnitsInOrder : Obligations.SeptetsOfATextAreItsUnitsInOrder := by
  refine ⟨?units, ?firstError, ?count⟩
  case units =>
    intro t U hU
    refine ⟨by rw [encodeSeptets, hU, Except.map], lookupAll_length hU, fun k cp hk => ?_⟩
    have hunits := (lookupAll_ok unit7 t U).mp hU
    obtain ⟨hkt, rfl⟩ := List.getElem?_eq_some_iff.mp hk
    have hkU : k < U.length := hunits.length_eq ▸ hkt
    exact ⟨U[k], List.getElem?_eq_getElem hkU, hunits.get hkt hkU⟩
  case firstError =>
    intro p q cp e hp hcp
    have hunits : units7 (p ++ cp :: q) = .error e := (lookupAll_error unit7 _ e).mpr ⟨p, cp, q, rfl, hp, hcp⟩
    exact ⟨hunits, by rw [encodeSeptets, hunits, Except.map]⟩
  case count =>
    intro t n h
    obtain ⟨S, hS, rfl⟩ := exceptMap_ok h
    exact encodeSeptets_length hS

/-! ### The decoder on the octets of a text (R97, R98) -/

theorem septetOctet_eq_append (c : Septet) : septetOctet c = (0#1 ++ c : BitVec 8) :=
  BitVec.setWidth_eq_append (by decide)

@[simp] theorem setWidth_septetOctet (c : Septet) : (septetOctet c).setWidth 7 = c := by
  rw [septetOctet, BitVec.setWidth_setWidth_of_le c (by decide), BitVec.setWidth_eq]

theorem septetOctet_le (c : Septet) : (septetOctet c).toNat ≤ 0x7F := by
  rw [septetOctet, BitVec.toNat_setWidth]
  omega

/-- Below `0x80` an octet is the octet of its low seven bits. -/
theorem septetOctet_setWidth {b : Octet} (h : b.toNat ≤ 0x7F) : septetOctet (b.setWidth 7) = b := by
  refine BitVec.eq_of_toNat_eq ?_
  simp only [septetOctet, BitVec.toNat_setWidth]
  omega

/-- The unit of a character at the front of the octets is decoded to it. -/
theorem decodeSeptets_unit_append {cp : CodePoint} {u : List Septet} (h : unit7 cp = .ok u) (B : List Octet) :
    decodeSeptets (u.map septetOctet ++ B) = (decodeSeptets B).map (cp :: ·) := by
  obtain ⟨c, hc, rfl⟩ | ⟨c, hc, rfl⟩ := unit7_eq_ok_iff.mp h
  · have hne : c ≠ escSeptet := (isSome_basicDec_iff c).mp (by rw [hc, Option.isSome_some])
    simp [decodeSeptets_cons, (septetOctet_le c).not_gt, hne, hc]
  · simp [decodeSeptets_cons, (septetOctet_le _).not_gt, hc]

/-- The septets of a text at the front of the octets are decoded to it, whatever follows them. -/
theorem decodeSeptets_text_append {T : Text} {S : List Septet} (h : encodeSeptets T = .ok S) (B : List Octet) :
    decodeSeptets (S.map septetOctet ++ B) = (decodeSeptets B).map (T ++ ·) := by
  induction T generalizing S with
  | nil =>
    obtain rfl := (encodeSeptets_nil S).mp h
    cases hB : decodeSeptets B <;> simp [hB, Except.map]
  | cons cp T ih =>
    obtain ⟨u, R, hu, hR, rfl⟩ := encodeSeptets_cons.mp h
    rw [List.map_append, List.append_assoc, decodeSeptets_unit_append hu, ih hR]
    cases decodeSeptets B <;> rfl

/-- No octet that is decoded lies above `0x7F` (R97 (1)). -/
theorem le_of_decodeSeptets_ok {B : List Octet} {T : Text} (h : decodeSeptets B = .ok T) :
    ∀ b ∈ B, b.toNat ≤ 0x7F := by
  fun_induction decodeSeptets B generalizing T
  case case1 => simp
  case case6 hb _ _ _ hc _ _ ih =>
    obtain ⟨u, hu, rfl⟩ := exceptMap_ok h
    exact List.forall_mem_cons.mpr ⟨not_lt.mp hb, List.forall_mem_cons.mpr ⟨not_lt.mp hc, ih hu⟩⟩
  case case8 hb _ _ _ ih =>
    obtain ⟨u, hu, rfl⟩ := exceptMap_ok h
    exact List.forall_mem_cons.mpr ⟨not_lt.mp hb, ih hu⟩
  all_goals cases h

/-- Octets that decode to a text with a first character start with the unit of that character. -/
theorem unit7_of_decodeSeptets_cons {B : List Octet} {cp : CodePoint} {T : Text}
    (h : decodeSeptets B = .ok (cp :: T)) :
    ∃ u R, unit7 cp = .ok u ∧ B = u.map septetOctet ++ R ∧ decodeSeptets R = .ok T := by
  have hle := le_of_decodeSeptets_ok h
  cases B with
  | nil => cases h
  | cons b bs =>
    obtain ⟨x, t, hx, ht, heq⟩ | ⟨c, cs, x, t, hesc, rfl, hx, ht, heq⟩ := decodeSeptets_cons_ok h
    · cases heq
      exact ⟨_, bs, unit7_of_basicDec hx, by simp [septetOctet_setWidth (hle b (by simp))], ht⟩
    · cases heq
      refine ⟨_, cs, unit7_of_extDec hx, ?_, ht⟩
      simp [← hesc, septetOctet_setWidth (hle b (by simp)), septetOctet_setWidth (hle c (by simp))]

/-- The octets decode to `T` exactly when they are the septets of `T`. -/
theorem decodeSeptets_eq_ok_iff {B : List Octet} {T : Text} :
    decodeSeptets B = .ok T ↔ ∃ S, encodeSeptets T = .ok S ∧ B = S.map septetOctet := by
  constructor
  · intro h
    induction T generalizing B with
    | nil =>
      cases B with
      | nil => exact ⟨[], rfl, rfl⟩
      | cons b bs =>
        obtain ⟨x, t, -, -, heq⟩ | ⟨c, cs, x, t, -, -, -, -, heq⟩ := decodeSeptets_cons_ok h
        · cases heq
        · cases heq
    | cons cp T ih =>
      obtain ⟨u, R, hu, rfl, hR⟩ := unit7_of_decodeSeptets_cons h
      obtain ⟨S, hS, rfl⟩ := ih hR
      exact ⟨u ++ S, encodeSeptets_cons.mpr ⟨u, S, hu, hS, rfl⟩, List.map_append.symm⟩
  · rintro ⟨S, hS, rfl⟩
    simpa [decodeSeptets, Except.map] using decodeSeptets_text_append hS []

/-- Settles O22: each way by induction on the text, one unit of the octets for each character. -/
theorem septetDecodeInvertsEncode : Obligations.SeptetDecodeInvertsEncode := by
  intro B T
  simp only [← septetOctet_eq_append]
  exact decodeSeptets_eq_ok_iff

/-! ### Octets that are no text (R97, R202) -/

theorem decodeSeptets_eq_error_iff {B : List Octet} :
    decodeSeptets B = .error .malformedInput ↔ ∀ T, decodeSeptets B ≠ .ok T := by
  cases h : decodeSeptets B with
  | ok T => simp
  | error e => simp [decodeSeptets_failsOnly B e h]

/-- Octets that raise keep raising behind the septets of a text. -/
theorem decodeSeptets_text_append_error {T : Text} {S : List Septet} (h : encodeSeptets T = .ok S)
    {B : List Octet} {e : ErrorKind} (hB : decodeSeptets B = .error e) :
    decodeSeptets (S.map septetOctet ++ B) = .error e := by
  rw [decodeSeptets_text_append h, hB, Except.map]

theorem septetOctet_esc : septetOctet escSeptet = 0x1B#8 := rfl

/-- An escape that no code follows raises (R97 (2)). -/
theorem decodeSeptets_esc_nil : decodeSeptets [0x1B#8] = .error .malformedInput := rfl

/-- An escape and a code without an Extension entry raise (R97 (3)). -/
theorem decodeSeptets_esc_cons {c : Septet} (h : extDec c = none) (q : List Octet) :
    decodeSeptets (0x1B#8 :: septetOctet c :: q) = .error .malformedInput := by
  rw [← septetOctet_esc, decodeSeptets_cons]
  simp [(septetOctet_le _).not_gt, h]

/-- Settles O23: the first clause is O22 read for every text, and each cause of R97 raises behind a text. -/
theorem malformedSeptetsAreRejected : Obligations.MalformedSeptetsAreRejected := by
  simp only [Obligations.MalformedSeptetsAreRejected, ← septetOctet_eq_append]
  refine ⟨?noText, decodeSeptets_failsOnly, ?orphanEscape, ?highOctet, ?escapeWithoutEntry⟩
  case noText =>
    intro B
    simp [decodeSeptets_eq_error_iff, decodeSeptets_eq_ok_iff]
  case orphanEscape =>
    intro T S hS
    exact decodeSeptets_text_append_error hS decodeSeptets_esc_nil
  case highOctet =>
    rintro B ⟨b, hb, hhigh⟩
    exact decodeSeptets_eq_error_iff.mpr fun T hT => (le_of_decodeSeptets_ok hT b hb).not_gt hhigh
  case escapeWithoutEntry =>
    intro T S c q hS hc
    exact decodeSeptets_text_append_error hS (decodeSeptets_esc_cons hc q)

end Sys2Proof.Machine

/-! PROOFS. The commands of G7U (41_gsm7_unpacked.md), over what a codec supplies to each operation: what an
opcode byte selects, what each operation leaves when its codec answers and when it fails, and how the segments
of ESPLIT come from parts of the text. Then the round trips of G7U and UCS2: decoding undoes encoding, in G7U
segment by segment too. -/

namespace Sys2Proof.Machine

/-! ### What an opcode byte selects (R70, R73) -/

/-- The two nibbles of a codec and an operation select their command. -/
theorem opcodeSelects_instrOf (c : Codec) (o : Op) :
    opcodeSelects (codecNibble c ++ opNibble o) (Instr.of c o) := fun lw cw hopc =>
  decodeAt_eq_ok_iff.mpr ⟨by rw [hopc, opcodeOf, codec_instrOf, op_instrOf], (limit_instrOf ..).symm⟩

/-! ### What each operation leaves, by what its codec answers (R110 to R114, R136 to R140, R164 to R168) -/

/-- The decoding that DEC writes (R111, R137, R165). -/
def codecDecode : Codec → List Octet → Except ErrorKind Text
  | .g7u => decodeSeptets
  | .g7p => fun B => decodeSeptets ((unpack B).map septetOctet)
  | .ucs2 => decodeU

theorem exec_instrOf_dec (c : Codec) (limit : Nat) (s : State) :
    exec (Instr.of c .dec limit) s = decodeCommand (codecDecode c) s := by
  cases c <;> rfl

theorem codecEncode_failsOnly (c : Codec) : FailsOnlyWith .unencodableCharacter (codecEncode c) := by
  cases c with
  | g7u => exact encodeSeptets_failsOnly.map (List.map septetOctet)
  | g7p => exact encodeSeptets_failsOnly.map pack
  | ucs2 => exact encodeU_failsOnly

theorem codecSize_failsOnly (c : Codec) : FailsOnlyWith .unencodableCharacter (codecSize c) := fun t e h =>
  codecEncode_failsOnly c t e (exceptMap_error ((codecSize_eq c t).symm.trans h))

theorem codecDecode_failsOnly (c : Codec) : FailsOnlyWith .malformedInput (codecDecode c) := by
  cases c with
  | g7u => exact decodeSeptets_failsOnly
  | g7p => exact fun B => decodeSeptets_failsOnly ((unpack B).map septetOctet)
  | ucs2 => exact decodeU_failsOnly

section operations
variable {c : Codec} {s : State} {e : ErrorKind}

theorem exec_enc_of_ok {B : List Octet} (h : codecEncode c (textOperand s) = .ok B) (limit : Nat) :
    exec (Instr.of c .enc limit) s = .next (commandEnd [B] [] 0x00#8 0x80#8 s) := by
  rw [exec_instrOf_enc, encodeCommand_eq, h]

theorem exec_enc_of_error (h : codecEncode c (textOperand s) = .error e) (limit : Nat) :
    exec (Instr.of c .enc limit) s = .next (commandEnd [] [] 0x00#8 0xC1#8 s) := by
  obtain rfl := codecEncode_failsOnly c _ e h
  rw [exec_instrOf_enc, encodeCommand_eq, h]
  rfl

theorem exec_dec_of_ok {T : Text} (h : codecDecode c (byteOperand s) = .ok T) (limit : Nat) :
    exec (Instr.of c .dec limit) s = .next (commandEnd [] T 0x00#8 0x80#8 s) := by
  rw [exec_instrOf_dec, decodeCommand_eq, h]

theorem exec_dec_of_error (h : codecDecode c (byteOperand s) = .error e) (limit : Nat) :
    exec (Instr.of c .dec limit) s = .next (commandEnd [] [] 0x00#8 0xC2#8 s) := by
  obtain rfl := codecDecode_failsOnly c _ e h
  rw [exec_instrOf_dec, decodeCommand_eq, h]
  rfl

/-- SSPLIT compares the limit with the octet count of what ENC writes on the same text. -/
theorem exec_ssplit_of_ok {n : Nat} (h : codecSize c (textOperand s) = .ok n) (limit : Nat) :
    exec (Instr.of c .ssplit limit) s =
        .next (commandEnd [] [] (if limit < n then 0x01#8 else 0x00#8) 0x80#8 s) ∧
      ∃ B, (∀ limit', exec (Instr.of c .enc limit') s = .next (commandEnd [B] [] 0x00#8 0x80#8 s)) ∧
        B.length = n := by
  refine ⟨by rw [exec_instrOf_ssplit, shouldSplitCommand_eq, h], ?_⟩
  obtain ⟨B, hB, hlen⟩ := exceptMap_ok ((codecSize_eq c _).symm.trans h)
  exact ⟨B, exec_enc_of_ok hB, hlen⟩

/-- SSPLIT raises where ENC does. -/
theorem exec_ssplit_of_error (h : codecSize c (textOperand s) = .error e) (limit : Nat) :
    exec (Instr.of c .ssplit limit) s = .next (commandEnd [] [] 0x00#8 0xC1#8 s) ∧
      ∀ limit', exec (Instr.of c .enc limit') s = .next (commandEnd [] [] 0x00#8 0xC1#8 s) := by
  have henc := exceptMap_error ((codecSize_eq c _).symm.trans h)
  obtain rfl := codecSize_failsOnly c _ e h
  refine ⟨?_, exec_enc_of_error henc⟩
  rw [exec_instrOf_ssplit, shouldSplitCommand_eq, h]
  rfl

theorem exec_esplit_of_ok {limit : Nat} {segs : List (List Octet)}
    (h : codecSplit c limit (textOperand s) = .ok segs) :
    exec (Instr.of c .esplit limit) s = .next (commandEnd segs [] 0x00#8 0x80#8 s) := by
  rw [exec_instrOf_esplit, splitCommand_eq, h]

theorem exec_esplit_of_error {limit : Nat} (h : codecSplit c limit (textOperand s) = .error e) :
    exec (Instr.of c .esplit limit) s = .next (commandEnd [] [] 0x00#8 (errorStatus e) s) := by
  rw [exec_instrOf_esplit, splitCommand_eq, h]

theorem errorStatus_ne_ok (e : ErrorKind) : errorStatus e ≠ 0x80#8 := by
  cases e <;> decide

/-- An ESPLIT that raises nothing has written the segments of its codec. -/
theorem exec_esplit_ok {limit : Nat} {t : State} (h : exec (Instr.of c .esplit limit) s = .next t)
    (hok : t.status = 0x80#8) :
    ∃ segs, codecSplit c limit (textOperand s) = .ok segs ∧ t = commandEnd segs [] 0x00#8 0x80#8 s := by
  cases hsplit : codecSplit c limit (textOperand s) with
  | ok segs => exact ⟨segs, rfl, Host.Outcome.next.inj (h.symm.trans (exec_esplit_of_ok hsplit))⟩
  | error e =>
    obtain rfl := Host.Outcome.next.inj (h.symm.trans (exec_esplit_of_error hsplit))
    exact absurd hok (errorStatus_ne_ok e)

end operations

/-- Settles O35, by the two answers of the size that SSPLIT compares. -/
theorem ssplitTellsWhetherEncExceedsTheLimit : Obligations.SsplitTellsWhetherEncExceedsTheLimit := by
  intro c limit limit' s
  cases h : codecSize c (textOperand s) with
  | ok n =>
    obtain ⟨hssplit, B, henc, rfl⟩ := exec_ssplit_of_ok h limit
    exact ⟨_, _, hssplit, henc limit', rfl, fun _ => by simp⟩
  | error e =>
    obtain ⟨hssplit, henc⟩ := exec_ssplit_of_error h limit
    exact ⟨_, _, hssplit, henc limit', rfl, fun hok => absurd hok (errorStatus_ne_ok .unencodableCharacter)⟩

/-- Settles O18: DCODE reads nothing and raises nothing. -/
theorem dcodeReturnsTheCodingIdentifier : Obligations.DcodeReturnsTheCodingIdentifier :=
  ⟨opcodeSelects_instrOf .g7u .dcode, opcodeSelects_instrOf .g7p .dcode, opcodeSelects_instrOf .ucs2 .dcode,
    fun _ s => ⟨dataCodingCommand_eq idGsm7 s, dataCodingCommand_eq idGsm7 s, dataCodingCommand_eq idUcs2 s⟩⟩

/-! ### The segments of a text (R181, R183) -/

section split
variable {β : Type} {units : Text → Except ErrorKind (List (List β))} {fits : Nat → Bool}
  {emit : List (List β) → List Octet} {t : Text} {U : List (List β)}

theorem split_of_units_error {e : ErrorKind} (h : units t = .error e) :
    (segmentText units fits t).map (List.map emit) = .error e := by
  simp [segmentText, h, Except.map]

/-- A unit that does not fit alone stops the whole split. -/
theorem split_of_not_fits (hU : units t = .ok U) (h : ∃ u ∈ U, fits u.length = false) :
    (segmentText units fits t).map (List.map emit) = .error .segmentLimitTooSmall := by
  have hseg : segment List.length fits U = .error .segmentLimitTooSmall := (segmentWalk_answers ..).1 h
  simp [segmentText, hU, hseg, Except.map]

/-- Units that each fit alone are split. -/
theorem split_of_fits (hU : units t = .ok U) (h : ∀ u ∈ U, fits u.length = true) :
    ∃ segs, segment List.length fits U = .ok segs ∧
      (segmentText units fits t).map (List.map emit) = .ok (segs.map emit) := by
  obtain ⟨segs, hseg⟩ : ∃ segs, segment List.length fits U = .ok segs := (segmentWalk_answers ..).2 h
  exact ⟨segs, hseg, by simp [segmentText, hU, hseg, Except.map]⟩

end split

/-- A text is encodable when each of its characters is. -/
theorem lookupAll_of_forall {β : Type} {unit : CodePoint → Except ErrorKind β} {t : Text}
    (h : ∀ cp ∈ t, ∃ u, unit cp = .ok u) : ∃ us, lookupAll unit t = .ok us := by
  cases ht : lookupAll unit t with
  | ok us => exact ⟨us, rfl⟩
  | error e =>
    obtain ⟨p, cp, q, rfl, -, hcp⟩ := (lookupAll_error unit t e).mp ht
    obtain ⟨u, hu⟩ := h cp (by simp)
    cases hcp.symm.trans hu

/-- Where the units of a text are cut, the text can be cut. -/
theorem lookupAll_eq_append {β : Type} {unit : CodePoint → Except ErrorKind β} {t : Text} {us vs : List β}
    (h : lookupAll unit t = .ok (us ++ vs)) :
    ∃ p q, p ++ q = t ∧ lookupAll unit p = .ok us ∧ lookupAll unit q = .ok vs := by
  have hunits := (lookupAll_ok unit t _).mp h
  exact ⟨t.take us.length, t.drop us.length, List.take_append_drop ..,
    (lookupAll_ok ..).mpr (List.forall₂_take_append _ _ _ hunits),
    (lookupAll_ok ..).mpr (List.forall₂_drop_append _ _ _ hunits)⟩

/-- A text whose units stand in groups falls into parts, one with the units of each group. -/
theorem exists_parts_of_lookupAll {β : Type} {unit : CodePoint → Except ErrorKind β} {groups : List (List β)}
    {t : Text} (h : lookupAll unit t = .ok groups.flatten) :
    ∃ parts : List Text, parts.flatten = t ∧
      List.Forall₂ (fun part g => lookupAll unit part = .ok g) parts groups := by
  induction groups generalizing t with
  | nil => exact ⟨[], (List.eq_nil_of_length_eq_zero (lookupAll_length h).symm).symm, .nil⟩
  | cons g groups ih =>
    obtain ⟨p, q, rfl, hp, hq⟩ := lookupAll_eq_append h
    obtain ⟨parts, rfl, hparts⟩ := ih hq
    exact ⟨p :: parts, rfl, .cons hp hparts⟩

/-- Each element on the right of two related lists has one on the left. -/
theorem exists_of_mem_forall₂_right {α β : Type} {R : α → β → Prop} {l : List α} {u : List β}
    (h : List.Forall₂ R l u) {b : β} (hb : b ∈ u) : ∃ a, R a b := by
  obtain ⟨i, hi, rfl⟩ := List.getElem_of_mem hb
  exact ⟨_, h.get (h.length_eq ▸ hi) hi⟩

/-- What the three ESPLIT commands share: the segments are emitted from groups of whole units, and each group
is the units of its part of the text. -/
theorem exists_parts_of_split {β : Type} {unit : CodePoint → Except ErrorKind (List β)} {fits : Nat → Bool}
    {emit : List (List β) → List Octet} {t : Text} {segs : List (List Octet)}
    (h : (segmentText (lookupAll unit) fits t).map (List.map emit) = .ok segs) :
    ∃ groups parts, groups.map emit = segs ∧ lookupAll unit t = .ok groups.flatten ∧ parts.flatten = t ∧
      List.Forall₂ (fun part g => lookupAll unit part = .ok g) parts groups := by
  obtain ⟨groups, hgroups, rfl⟩ := exceptMap_ok h
  obtain ⟨U, hU, hseg⟩ := segmentText_ok hgroups
  obtain rfl := segment_flatten hseg
  obtain ⟨parts, hparts, hunits⟩ := exists_parts_of_lookupAll hU
  exact ⟨groups, parts, rfl, hU, hparts, hunits⟩

/-! ### The escapes in the octets of a text (R90, R94) -/

theorem septetOctet_eq_esc_iff {c : Septet} : septetOctet c = 0x1B#8 ↔ c = escSeptet := by
  refine ⟨fun h => ?_, fun h => by rw [h, septetOctet_esc]⟩
  rw [← setWidth_septetOctet c, h]
  rfl

/-- A unit is a code other than `ESC`, alone or behind one `ESC`: neither table has an entry for `ESC`. -/
theorem unit7_ok_cases {cp : CodePoint} {u : List Septet} (h : unit7 cp = .ok u) :
    ∃ c, c ≠ escSeptet ∧ (u = [c] ∨ u = [escSeptet, c]) := by
  obtain ⟨c, hc, rfl⟩ | ⟨c, hc, rfl⟩ := unit7_eq_ok_iff.mp h
  · exact ⟨c, (by rintro rfl; cases hc), .inl rfl⟩
  · exact ⟨c, (by rintro rfl; cases hc), .inr rfl⟩

/-- The octets of a text are one for each character and one for each escape. -/
theorem length_add_count_esc {T : Text} {S : List Septet} (h : encodeSeptets T = .ok S) :
    T.length + (S.map septetOctet).count 0x1B#8 = S.length := by
  induction T generalizing S with
  | nil => simp [(encodeSeptets_nil S).mp h]
  | cons cp T ih =>
    obtain ⟨u, R, hu, hR, rfl⟩ := encodeSeptets_cons.mp h
    have hrest := ih hR
    have hunit : 1 + (u.map septetOctet).count 0x1B#8 = u.length := by
      obtain ⟨c, hc, rfl | rfl⟩ := unit7_ok_cases hu <;>
        simp [List.count_cons, septetOctet_eq_esc_iff, hc]
    simp only [List.length_cons, List.map_append, List.count_append, List.length_append]
    omega

/-- The septets of a text do not end with `ESC`: no unit does. -/
theorem getLast?_encodeSeptets {T : Text} {S : List Septet} (h : encodeSeptets T = .ok S) :
    S.getLast? ≠ some escSeptet := by
  induction T generalizing S with
  | nil => simp [(encodeSeptets_nil S).mp h]
  | cons cp T ih =>
    obtain ⟨u, R, hu, hR, rfl⟩ := encodeSeptets_cons.mp h
    have hrest := ih hR
    rw [List.getLast?_append]
    cases hlast : R.getLast? with
    | some d => simpa [hlast] using hrest
    | none => obtain ⟨c, hc, rfl | rfl⟩ := unit7_ok_cases hu <;> simpa using hc

/-! ### The commands of G7U -/

theorem codecEncode_g7u_ok {T : Text} {S : List Septet} (h : encodeSeptets T = .ok S) :
    codecEncode .g7u T = .ok (S.map septetOctet) := by
  simp [codecEncode, h, Except.map]

theorem codecEncode_g7u_error {T : Text} {e : ErrorKind} (h : encodeSeptets T = .error e) :
    codecEncode .g7u T = .error e := by
  simp [codecEncode, h, Except.map]

/-- Settles O6, by the two answers of the septet lookup. -/
theorem g7uEncWritesOneUnpackedSegment : Obligations.G7uEncWritesOneUnpackedSegment := by
  refine ⟨opcodeSelects_instrOf .g7u .enc, fun limit s => ⟨fun S hS => ?_, fun e he => ?_⟩⟩
  · simp only [← septetOctet_eq_append]
    exact exec_enc_of_ok (codecEncode_g7u_ok hS) limit
  · exact exec_enc_of_error (codecEncode_g7u_error he) limit

/-- Settles O7: what decodes is the octets of a text, one for each character and one for each escape. -/
theorem g7uDecResolvesEscapes : Obligations.G7uDecResolvesEscapes := by
  refine ⟨opcodeSelects_instrOf .g7u .dec, fun limit s => ⟨fun T hT => ?_, fun e he => ?_⟩⟩
  · refine ⟨exec_dec_of_ok (c := .g7u) hT limit, ?_⟩
    obtain ⟨S, hS, hB⟩ := decodeSeptets_eq_ok_iff.mp hT
    rw [← byteOperand_length, hB, List.length_map]
    exact length_add_count_esc hS
  · exact exec_dec_of_error (c := .g7u) he limit

/-- Settles O8, from what SSPLIT shares with ENC. -/
theorem g7uSsplitComparesSeptetCount : Obligations.G7uSsplitComparesSeptetCount := by
  refine ⟨opcodeSelects_instrOf .g7u .ssplit, fun limit s => ⟨fun n hn => ?_, fun e he => ?_⟩⟩
  · obtain ⟨hssplit, B, henc, hlen⟩ := exec_ssplit_of_ok (c := .g7u) hn limit
    exact ⟨hssplit, B, henc limit, hlen⟩
  · exact (exec_ssplit_of_error (c := .g7u) he limit).1

/-- Settles O9, by the three answers of the split. -/
theorem g7uEsplitSegmentsUnpacked : Obligations.G7uEsplitSegmentsUnpacked := by
  refine ⟨opcodeSelects_instrOf .g7u .esplit, fun limit s =>
    ⟨fun e he => ?_, fun U hU hlong => ?_, fun U hU hfits => ?_⟩⟩
  · obtain rfl := unit7_failsOnly.lookupAll _ e he
    exact exec_esplit_of_error (c := .g7u) (split_of_units_error he)
  · exact exec_esplit_of_error (c := .g7u) (split_of_not_fits hU (by simpa [fitsOctets] using hlong))
  · simp only [← septetOctet_eq_append]
    obtain ⟨segs, hseg, hsplit⟩ := split_of_fits (fits := fitsOctets limit)
      (emit := fun g => g.flatten.map septetOctet) hU (by simpa [fitsOctets] using hfits)
    exact ⟨segs, hseg, exec_esplit_of_ok (c := .g7u) hsplit⟩

/-! ### Reassembly in G7U (R115) -/

theorem decodeSeptets_of_encodeSeptets {T : Text} {S : List Septet} (h : encodeSeptets T = .ok S) :
    decodeSeptets (S.map septetOctet) = .ok T :=
  decodeSeptets_eq_ok_iff.mpr ⟨S, h, rfl⟩

theorem encodeSeptets_of_units7 {T : Text} {U : List (List Septet)} (h : units7 T = .ok U) :
    encodeSeptets T = .ok U.flatten := by
  rw [encodeSeptets, h, Except.map]

/-- Settles O38: each segment is the octets of a part of the text, so it decodes to that part and ends with no
escape; joined they are the octets of the text. -/
theorem g7uSegmentsReassemble : Obligations.G7uSegmentsReassemble := by
  intro limit limit' s t t' hsplit hok henc
  obtain ⟨segs, hsegs, rfl⟩ := exec_esplit_ok (c := .g7u) hsplit hok
  have hlen := codecSplit_length_le hsegs
  obtain ⟨groups, parts, rfl, hU, hparts, hunits⟩ := exists_parts_of_split hsegs
  have hsepts : List.Forall₂ (fun part g => encodeSeptets part = .ok g.flatten) parts groups :=
    hunits.imp fun _ _ => encodeSeptets_of_units7
  refine ⟨?joined, fun g hg => ⟨hlen g hg, ?noEsc⟩, parts, hparts, ?decoded⟩
  case joined =>
    have hB := codecEncode_g7u_ok (encodeSeptets_of_units7 hU)
    obtain rfl := Host.Outcome.next.inj (henc.symm.trans (exec_enc_of_ok hB limit'))
    simp [List.flatten_flatten, List.map_flatten, Function.comp_def]
  case noEsc =>
    obtain ⟨group, hgroup, rfl⟩ := List.mem_map.mp hg
    obtain ⟨part, hpart⟩ := exists_of_mem_forall₂_right hsepts hgroup
    intro hlast
    obtain ⟨c, hc, hesc⟩ := Option.map_eq_some_iff.mp (List.getLast?_map.symm.trans hlast)
    exact getLast?_encodeSeptets hpart (septetOctet_eq_esc_iff.mp hesc ▸ hc)
  case decoded =>
    refine List.forall₂_map_right_iff.mpr (hsepts.imp fun part group hpart s' l hs' => ?_)
    exact exec_dec_of_ok (c := .g7u) (hs' ▸ decodeSeptets_of_encodeSeptets hpart) l

/-! ### The octets of a text in UCS2 (R160 to R163) -/

/-- What the lookup of a character answers: its code unit, or its surrogate pair. -/
theorem unitU_ok_cases {cp : CodePoint} {u : List Octet} (h : unitU cp = .ok u) :
    ((cp.toNat ≤ 0xD7FF ∨ (0xE000 ≤ cp.toNat ∧ cp.toNat ≤ 0xFFFF)) ∧ u = unitOctets (cp.extractLsb' 0 16)) ∨
    ((0x10000 ≤ cp.toNat ∧ cp.toNat ≤ 0x10FFFF) ∧
      u = unitOctets (highSurrogate cp) ++ unitOctets (lowSurrogate cp)) := by
  unfold unitU at h
  split at h
  next hcp => exact .inl ⟨hcp, (Except.ok.inj h).symm⟩
  next =>
    split at h
    next hcp => exact .inr ⟨hcp, (Except.ok.inj h).symm⟩
    next => cases h

/-- Every Unicode scalar value has a unit (R162). -/
theorem unitU_of_scalarValue {cp : CodePoint} (h : scalarValue cp) : ∃ u, unitU cp = .ok u := by
  unfold unitU
  split_ifs
  · exact ⟨_, rfl⟩
  · exact ⟨_, rfl⟩
  · omega

/-- The octets of a code unit are read back as that unit. -/
theorem codeUnits_unitOctets_append (a : CodeUnit) (B : List Octet) :
    codeUnits (unitOctets a ++ B) = a :: codeUnits B := by
  have ha : BitVec.ofNat 16 ((a.extractLsb' 8 8).toNat * 256 + (a.extractLsb' 0 8).toNat) = a := by
    refine BitVec.eq_of_toNat_eq ?_
    simp only [BitVec.toNat_ofNat, BitVec.extractLsb'_toNat, Nat.shiftRight_eq_div_pow]
    omega
  exact congrArg (· :: codeUnits B) ha

/-- A code unit that is no surrogate is a character (R163). -/
theorem decodeUnits_codeUnit {a : CodeUnit} (h : a.toNat ≤ 0xD7FF ∨ 0xE000 ≤ a.toNat) (us : List CodeUnit) :
    decodeUnits (a :: us) = (decodeUnits us).map (a.setWidth 21 :: ·) := by
  rw [decodeUnits_cons, if_neg (by omega), if_neg (by omega)]

/-- A surrogate pair is a character (R163). -/
theorem decodeUnits_surrogatePair {a b : CodeUnit} (ha : 0xD800 ≤ a.toNat ∧ a.toNat ≤ 0xDBFF)
    (hb : 0xDC00 ≤ b.toNat ∧ b.toNat ≤ 0xDFFF) (us : List CodeUnit) :
    decodeUnits (a :: b :: us) = (decodeUnits us).map
      (BitVec.ofNat 21 (0x10000 + (a.toNat - 0xD800) * 0x400 + (b.toNat - 0xDC00)) :: ·) := by
  rw [decodeUnits_cons, if_pos ha]
  exact if_pos hb

theorem highSurrogate_toNat {cp : CodePoint} (h : 0x10000 ≤ cp.toNat ∧ cp.toNat ≤ 0x10FFFF) :
    (highSurrogate cp).toNat = 0xD800 + (cp.toNat - 0x10000) / 0x400 := by
  simp only [highSurrogate, BitVec.toNat_ofNat]
  omega

theorem lowSurrogate_toNat (cp : CodePoint) :
    (lowSurrogate cp).toNat = 0xDC00 + (cp.toNat - 0x10000) % 0x400 := by
  simp only [lowSurrogate, BitVec.toNat_ofNat]
  omega

/-- The unit of a character at the front of the octets is read back as it. -/
theorem decodeUnits_unit_append {cp : CodePoint} {u : List Octet} (h : unitU cp = .ok u) (B : List Octet) :
    decodeUnits (codeUnits (u ++ B)) = (decodeUnits (codeUnits B)).map (cp :: ·) := by
  obtain ⟨hcp, rfl⟩ | ⟨hcp, rfl⟩ := unitU_ok_cases h
  · have ha : (cp.extractLsb' 0 16).toNat = cp.toNat := by
      simp only [BitVec.extractLsb'_toNat, Nat.shiftRight_zero]
      omega
    have hback : (cp.extractLsb' 0 16).setWidth 21 = cp := by
      refine BitVec.eq_of_toNat_eq ?_
      rw [BitVec.toNat_setWidth, ha, Nat.mod_eq_of_lt cp.isLt]
    rw [codeUnits_unitOctets_append, decodeUnits_codeUnit (by omega), hback]
  · have hhigh := highSurrogate_toNat hcp
    have hlow := lowSurrogate_toNat cp
    have hback : BitVec.ofNat 21 (0x10000 + ((highSurrogate cp).toNat - 0xD800) * 0x400
        + ((lowSurrogate cp).toNat - 0xDC00)) = cp := by
      refine BitVec.eq_of_toNat_eq ?_
      rw [BitVec.toNat_ofNat]
      omega
    rw [List.append_assoc, codeUnits_unitOctets_append, codeUnits_unitOctets_append,
      decodeUnits_surrogatePair (by omega) (by omega), hback]

/-- A unit has two octets or four. -/
theorem unitU_length_even {cp : CodePoint} {u : List Octet} (h : unitU cp = .ok u) : u.length % 2 = 0 := by
  obtain ⟨-, rfl⟩ | ⟨-, rfl⟩ := unitU_ok_cases h <;> simp [unitOctets]

theorem decodeU_unit_append {cp : CodePoint} {u : List Octet} (h : unitU cp = .ok u) (B : List Octet) :
    decodeU (u ++ B) = (decodeU B).map (cp :: ·) := by
  have hpar : (u ++ B).length % 2 = B.length % 2 := by
    have heven := unitU_length_even h
    rw [List.length_append]
    omega
  rw [decodeU, decodeU, hpar, decodeUnits_unit_append h]
  split <;> rfl

theorem encodeU_of_unitsU {T : Text} {U : List (List Octet)} (h : unitsU T = .ok U) :
    encodeU T = .ok U.flatten := by
  rw [encodeU, h, Except.map]

/-- The octets of a text decode to it, one unit for each character (R169 (a)). -/
theorem decodeU_of_encodeU {T : Text} {B : List Octet} (h : encodeU T = .ok B) : decodeU B = .ok T := by
  obtain ⟨U, hU, rfl⟩ := exceptMap_ok h
  induction (lookupAll_ok unitU T U).mp hU with
  | nil => rfl
  | @cons cp u T U hu hunits ih =>
    have hrest : unitsU T = .ok U := (lookupAll_ok unitU T U).mpr hunits
    rw [List.flatten_cons, decodeU_unit_append hu, ih hrest (encodeU_of_unitsU hrest), Except.map]

/-! ### Round trips (R115, R169) -/

/-- DEC of the octets that ENC wrote gives the text, where the codec's decoder undoes its encoder. -/
theorem dec_of_enc {c : Codec} {s : State} {B : List Octet} (hB : codecEncode c (textOperand s) = .ok B)
    (hback : codecDecode c B = .ok (textOperand s)) (limit limit' : Nat) :
    ∃ B, exec (Instr.of c .enc limit) s = .next (commandEnd [B] [] 0x00#8 0x80#8 s) ∧
      ∀ s', byteOperand s' = B →
        exec (Instr.of c .dec limit') s' = .next (commandEnd [] (textOperand s) 0x00#8 0x80#8 s') :=
  ⟨B, exec_enc_of_ok hB limit, fun _ hs' => exec_dec_of_ok (hs' ▸ hback) limit'⟩

/-- Settles O37: every character of either text has a unit, and each decoder undoes its encoder. -/
theorem decReturnsWhatEncEncoded : Obligations.DecReturnsWhatEncEncoded := by
  refine fun limit limit' s => ⟨fun hchars => ?_, fun hscalar => ?_⟩
  · have hunit : ∀ cp ∈ textOperand s, ∃ u, unit7 cp = .ok u := by
      intro cp hcp
      obtain ⟨c, hc⟩ | ⟨c, hc⟩ := hchars cp hcp
      · exact ⟨_, unit7_of_basicDec hc⟩
      · exact ⟨_, unit7_of_extDec hc⟩
    obtain ⟨U, hU⟩ := lookupAll_of_forall hunit
    have hS := encodeSeptets_of_units7 hU
    exact dec_of_enc (c := .g7u) (codecEncode_g7u_ok hS) (decodeSeptets_of_encodeSeptets hS) limit limit'
  · obtain ⟨U, hU⟩ := lookupAll_of_forall fun cp hcp => unitU_of_scalarValue (hscalar cp hcp)
    have hB := encodeU_of_unitsU hU
    exact dec_of_enc (c := .ucs2) hB (decodeU_of_encodeU hB) limit limit'

end Sys2Proof.Machine

/-! PROOFS. The packed septet form and the commands of G7P (42_gsm7_packed.md). First the sizes, then the one bit
stream that octets and septets share: sequences are compared by their streams, and packing and unpacking keep the
bits of the stream they read. Then the commands, and what G7P.DEC gives for what ENC and ESPLIT wrote. -/

namespace Sys2Proof.Machine

/-! ### The sizes (R134, R135) -/

theorem packedLen_eq (n : Nat) : packedLen n = (7 * n + 7) / 8 := rfl

theorem packedLen_eq_sub (n : Nat) : packedLen n = n - n / 8 := by
  rw [packedLen_eq]
  omega

theorem packedLen_le_iff (n limit : Nat) : packedLen n ≤ limit ↔ 7 * n ≤ 8 * limit := by
  rw [packedLen_eq]
  omega

theorem fill_eq_one_iff (n : Nat) : fill n = 1 ↔ n % 8 = 7 := by
  unfold fill
  split <;> simp [*]

theorem packedLen_add_fill (n : Nat) : packedLen (n + fill n) = packedLen n := by
  simp only [packedLen_eq, fill]
  split <;> omega

/-- Settles O27: each part is arithmetic of the quotient that `packedLen` is. -/
theorem packedSizesAndFiller : Obligations.PackedSizesAndFiller := by
  refine ⟨fun n => ?forms, fun n L => ⟨packedLen_le_iff n L, ?threshold⟩, fun n m hnm => ?monotone,
    fun n => ⟨packedLen_add_fill n, fill_eq_one_iff n, fun hfill => ?full⟩⟩
  case forms =>
    rw [packedLen_eq]
    omega
  case threshold =>
    rw [packedLen_le_iff, maxSeptets]
    omega
  case monotone =>
    rw [packedLen_eq, packedLen_eq]
    omega
  case full =>
    have hn := (fill_eq_one_iff n).mp hfill
    rw [hfill, packedLen_eq]
    omega

/-! ### The stream of a sequence (R51, R141) -/

section stream
variable {w : Nat}

/-- The values of a sequence stand `w` bits apart in its stream. -/
theorem streamBit_mul_add (xs : List (BitVec w)) (i : Nat) {b : Nat} (hb : b < w) :
    streamBit xs (w * i + b) = (xs.getD i 0#w).getLsbD b := by
  rw [streamBit, Nat.mul_add_div (by omega), Nat.div_eq_of_lt hb, Nat.mul_add_mod, Nat.mod_eq_of_lt hb,
    Nat.add_zero]

theorem streamBit_of_getElem? {xs : List (BitVec w)} {k : Nat} {x : BitVec w} (h : xs[k / w]? = some x) :
    streamBit xs k = x.getLsbD (k % w) := by
  simp [streamBit, h]

/-- A sequence is its length and its stream. -/
theorem eq_of_streamBit_eq {xs ys : List (BitVec w)} (hlen : xs.length = ys.length)
    (h : ∀ k, streamBit xs k = streamBit ys k) : xs = ys := by
  refine List.ext_getElem hlen fun i hx hy => BitVec.eq_of_getLsbD_eq fun b hb => ?_
  simpa [streamBit_mul_add _ i hb, hx, hy] using h (w * i + b)

/-- The stream of a sequence with one value more at its end. -/
theorem streamBit_concat (hw : 0 < w) (xs : List (BitVec w)) (x : BitVec w) (k : Nat) :
    streamBit (xs ++ [x]) k =
      if k < w * xs.length then streamBit xs k else x.getLsbD (k - w * xs.length) := by
  split
  next h =>
    have hk : k / w < xs.length := Nat.div_lt_of_lt_mul h
    simp [streamBit, List.getElem?_append_left hk]
  next h =>
    obtain ⟨c, rfl⟩ := Nat.exists_eq_add_of_le (not_lt.mp h)
    rw [Nat.add_sub_cancel_left]
    rcases lt_or_ge c w with hc | hc
    · rw [streamBit_mul_add _ _ hc]
      simp
    · rw [BitVec.getLsbD_of_ge x c hc, streamBit_ge _ hw (by simp [Nat.mul_add]; omega)]

/-- A zero value at the end adds no bit to the stream. -/
theorem streamBit_concat_zero (hw : 0 < w) (xs : List (BitVec w)) (k : Nat) :
    streamBit (xs ++ [0#w]) k = streamBit xs k := by
  rw [streamBit_concat hw]
  split
  next => rfl
  next h => rw [BitVec.getLsbD_zero, streamBit_ge xs hw (not_lt.mp h)]

/-- Cutting a stream `f` into `n` values keeps its first `w * n` bits. -/
theorem streamBit_map_bitSum (hw : 0 < w) (f : Nat → Bool) (n k : Nat) :
    streamBit ((List.range n).map fun j => BitVec.ofNat w (bitSum (fun b => f (w * j + b)) w)) k =
      (decide (k < w * n) && f k) := by
  by_cases hk : k < w * n
  · have hval : k / w < n := Nat.div_lt_of_lt_mul hk
    have hbit : k % w < w := Nat.mod_lt k hw
    have hget : ((List.range n).map fun j => BitVec.ofNat w (bitSum (fun b => f (w * j + b)) w))[k / w]? =
        some (BitVec.ofNat w (bitSum (fun b => f (w * (k / w) + b)) w)) := by simp [hval]
    rw [streamBit_of_getElem? hget, ofNat_bitSum_getLsbD, Nat.div_add_mod, decide_eq_true hbit, decide_eq_true hk]
  · rw [streamBit_ge _ hw (by simpa using hk), decide_eq_false hk, Bool.false_and]

end stream

/-- Packing keeps every bit of the stream: the bits it adds are the zeros past the septets (R130). -/
theorem streamBit_pack (S : List Septet) (k : Nat) : streamBit (pack S) k = streamBit S k := by
  rw [pack, streamBit_map_bitSum (by decide)]
  by_cases hk : k < 8 * packedLen S.length
  · rw [decide_eq_true hk, Bool.true_and]
  · rw [streamBit_ge S (by decide) (by rw [packedLen_eq] at hk; omega), Bool.and_false]

/-- Unpacking keeps the bits of the whole septets (R132). -/
theorem streamBit_unpack (B : List Octet) (k : Nat) :
    streamBit (unpack B) k = (decide (k < 7 * (8 * B.length / 7)) && streamBit B k) :=
  streamBit_map_bitSum (by decide) (streamBit B) _ k

/-! ### Packing undoes unpacking, and the reverse (R142) -/

theorem eight_mul_packedLen_div_seven (n : Nat) : 8 * packedLen n / 7 = n + fill n := by
  have hn := packedLen_eq_sub n
  unfold fill
  split <;> omega

/-- What is unpacked has the stream of the septets that were packed, in room for one more at 7 modulo 8. -/
theorem unpack_pack (S : List Septet) :
    unpack (pack S) = if S.length % 8 = 7 then S ++ [0x00#7] else S := by
  have hlen : (unpack (pack S)).length = S.length + fill S.length := by
    rw [unpack_length, pack_length, eight_mul_packedLen_div_seven]
  have hbits : ∀ k, streamBit (unpack (pack S)) k = streamBit S k := by
    intro k
    rw [streamBit_unpack, streamBit_pack, pack_length, eight_mul_packedLen_div_seven]
    by_cases hk : k < 7 * S.length
    · rw [decide_eq_true (by omega), Bool.true_and]
    · rw [streamBit_ge S (by decide) (not_lt.mp hk), Bool.and_false]
  split
  next h =>
    refine eq_of_streamBit_eq (by rw [hlen, (fill_eq_one_iff _).mpr h]; simp) fun k => ?_
    rw [hbits, streamBit_concat_zero (by decide)]
  next h => exact eq_of_streamBit_eq (by rw [hlen, fill, if_neg h, Nat.add_zero]) hbits

/-- Settles O28: the unpacked septets have the packed ones' stream. -/
theorem unpackOfPackReturnsTheSeptets : Obligations.UnpackOfPackReturnsTheSeptets := unpack_pack

theorem ofNat_mod_two_pow_getLsbD (x : Octet) (n b : Nat) :
    (BitVec.ofNat 8 (x.toNat % 2 ^ n)).getLsbD b = (decide (b < n) && x.getLsbD b) := by
  rw [BitVec.getLsbD_ofNat, Nat.testBit_mod_two_pow, BitVec.testBit_toNat]
  rcases lt_or_ge b 8 with hb | hb
  · simp [hb]
  · simp [BitVec.getLsbD_of_ge x b hb]

/-- Settles O29: what is packed again has the stream of the octets up to the last whole septet, and only the
last octet reaches past it. -/
theorem packOfUnpackClearsTheSpareBits : Obligations.PackOfUnpackClearsTheSpareBits := by
  refine ⟨rfl, fun B x => eq_of_streamBit_eq ?length fun k => ?bits⟩
  case length =>
    simp only [pack_length, unpack_length, List.length_append, List.length_singleton, packedLen_eq]
    omega
  case bits =>
    rw [streamBit_pack, streamBit_unpack, streamBit_concat (by decide), streamBit_concat (by decide),
      List.length_append, List.length_singleton]
    split
    next hk => rw [decide_eq_true (by omega), Bool.true_and]
    next hk =>
      rw [ofNat_mod_two_pow_getLsbD]
      congr 1
      rw [decide_eq_decide]
      omega

/-! ### Where each bit stands (R130, R132) -/

/-- Settles O25: the octets have the stream of the septets, which is 0 past the last septet. -/
theorem packPlacesEveryBit : Obligations.PackPlacesEveryBit := by
  refine fun S => ⟨pack_length S, fun i b c hc hb => ?placed, fun k o hk ho => ?zero⟩
  case placed =>
    have hi : i < S.length := (List.getElem?_eq_some_iff.mp hc).1
    have hin : 7 * i + b < 8 * (pack S).length := by
      rw [pack_length, packedLen_eq]
      omega
    obtain ⟨o, ho, hbit⟩ := streamBit_lt (pack S) (by decide) hin
    exact ⟨o, ho, by rw [← hbit, streamBit_pack, streamBit_mul_add _ _ hb]; simp [hc]⟩
  case zero => rw [← streamBit_of_getElem? ho, streamBit_pack, streamBit_ge S (by decide) hk]

/-- Settles O26: the septets have the stream of the octets up to the last whole septet, so the bits of the last
octet past it do not matter. -/
theorem unpackReadsEveryWholeSeptet : Obligations.UnpackReadsEveryWholeSeptet := by
  refine ⟨fun B => ⟨unpack_length B, fun i b c hc hb => ?read⟩, fun B x y hxy => ?ignored⟩
  case read =>
    have hi : i < 8 * B.length / 7 := unpack_length B ▸ (List.getElem?_eq_some_iff.mp hc).1
    obtain ⟨o, ho, hbit⟩ := streamBit_lt B (k := 7 * i + b) (by decide) (by omega)
    have hc' : streamBit (unpack B) (7 * i + b) = c.getLsbD b := by
      rw [streamBit_mul_add _ _ hb]
      simp [hc]
    exact ⟨o, ho, by rw [← hc', ← hbit, streamBit_unpack, decide_eq_true (by omega), Bool.true_and]⟩
  case ignored =>
    refine eq_of_streamBit_eq (by simp) fun k => ?_
    rw [streamBit_unpack, streamBit_unpack, streamBit_concat (by decide), streamBit_concat (by decide),
      List.length_append, List.length_append, List.length_singleton, List.length_singleton]
    split
    next => rfl
    next hk =>
      by_cases hin : k < 7 * (8 * (B.length + 1) / 7)
      · rw [hxy _ (by omega)]
      · simp [hin]

/-! ### The shift and mask forms (R131, R133) -/

/-- A shift and mask over two neighbouring values gives the `n` bits of the stream from bit `r` of the first. -/
theorem ofNat_shift_or_eq_bitSum {w n m r : Nat} (hm : m = 2 ^ n) (xs : List (BitVec w)) (i : Nat) (hr : r ≤ w)
    (hn : r + n ≤ 2 * w) :
    BitVec.ofNat n (((xs.getD i 0#w).toNat >>> r ||| (xs.getD (i + 1) 0#w).toNat <<< (w - r)) % m) =
      BitVec.ofNat n (bitSum (fun b => streamBit xs (w * i + (r + b))) n) := by
  refine BitVec.eq_of_getLsbD_eq fun b hb => ?_
  simp only [hm, bitSum_testBit, BitVec.getLsbD_ofNat, Nat.testBit_mod_two_pow, Nat.testBit_or,
    Nat.testBit_shiftRight, Nat.testBit_shiftLeft, BitVec.testBit_toNat, hb, decide_true, Bool.true_and]
  rcases lt_or_ge (r + b) w with h | h
  · rw [streamBit_mul_add _ _ h, decide_eq_false (by omega), Bool.false_and, Bool.or_false]
  · have hnext : w * i + (r + b) = w * (i + 1) + (b - (w - r)) := by
      rw [Nat.mul_succ]
      omega
    rw [hnext, streamBit_mul_add _ _ (by omega), BitVec.getLsbD_of_ge _ _ h, Bool.false_or,
      decide_eq_true (by omega), Bool.true_and]

/-- The septet indices that make an octet: octet `j` is made at `j + j / 7`, since index 7 of a group makes
none. -/
theorem flatMap_range_skip_seventh {α : Type} (f : Nat → α) (n : Nat) :
    (List.range n).flatMap (fun i => if i % 8 = 7 then [] else [f i]) =
      (List.range (packedLen n)).map fun j => f (j + j / 7) := by
  induction n with
  | zero => rfl
  | succ n ih =>
    rw [List.range_succ, List.flatMap_append, ih, List.flatMap_singleton]
    have hn := packedLen_eq_sub n
    have hsucc := packedLen_eq_sub (n + 1)
    split
    next h => rw [List.append_nil, show packedLen (n + 1) = packedLen n by omega]
    next h =>
      rw [show packedLen (n + 1) = packedLen n + 1 by omega, List.range_succ, List.map_append,
        List.map_singleton, show packedLen n + packedLen n / 7 = n by omega]

/-- Settles O24: both forms read the same bits of the stream. -/
theorem shiftFormsAgreeWithTheBitStream : Obligations.ShiftFormsAgreeWithTheBitStream := by
  refine ⟨fun S => ?packer, fun B => ?unpacker⟩
  case packer =>
    refine (flatMap_range_skip_seventh _ S.length).trans (List.map_congr_left fun j _ => ?_)
    rw [ofNat_shift_or_eq_bitSum (m := 256) rfl S _ (by omega) (by omega)]
    have hbit : ∀ b, 7 * (j + j / 7) + ((j + j / 7) % 8 + b) = 8 * j + b := fun b => by omega
    simp only [hbit]
  case unpacker =>
    refine List.map_congr_left fun i _ => ?_
    rw [unpackShiftAt, ofNat_shift_or_eq_bitSum (m := 128) rfl B _ (by omega) (by omega)]
    have hbit : ∀ b, 8 * (7 * i / 8) + (7 * i % 8 + b) = 7 * i + b := fun b => by omega
    simp only [hbit]

/-! ### The commands of G7P -/

theorem codecEncode_g7p_ok {T : Text} {S : List Septet} (h : encodeSeptets T = .ok S) :
    codecEncode .g7p T = .ok (pack S) := by
  simp [codecEncode, h, Except.map]

theorem codecEncode_g7p_error {T : Text} {e : ErrorKind} (h : encodeSeptets T = .error e) :
    codecEncode .g7p T = .error e := by
  simp [codecEncode, h, Except.map]

theorem codecSize_g7p_ok {T : Text} {n : Nat} (h : septetCount T = .ok n) :
    codecSize .g7p T = .ok (packedLen n) := by
  simp [codecSize, h, Except.map]

theorem codecSize_g7p_error {T : Text} {e : ErrorKind} (h : septetCount T = .error e) :
    codecSize .g7p T = .error e := by
  simp [codecSize, h, Except.map]

/-- A segment's filler is one `CR`, exactly at 7 modulo 8 septets (R135). -/
theorem withFiller_eq (S : List Septet) : withFiller S = if S.length % 8 = 7 then S ++ [0x0D#7] else S := by
  unfold withFiller fill
  split
  next => rfl
  next => exact List.append_nil S

/-- Settles O10, by the two answers of the septet lookup. -/
theorem g7pEncPacksWithoutFiller : Obligations.G7pEncPacksWithoutFiller :=
  ⟨opcodeSelects_instrOf .g7p .enc, fun limit _ =>
    ⟨fun _ hS => exec_enc_of_ok (codecEncode_g7p_ok hS) limit,
      fun _ he => exec_enc_of_error (codecEncode_g7p_error he) limit⟩⟩

/-- Settles O11, by the two answers of the decoder on the unpacked septets. -/
theorem g7pDecUnpacksThenDecodes : Obligations.G7pDecUnpacksThenDecodes := by
  unfold Obligations.G7pDecUnpacksThenDecodes
  simp only [← septetOctet_eq_append]
  exact ⟨opcodeSelects_instrOf .g7p .dec, fun limit s =>
    ⟨fun T hT => exec_dec_of_ok (c := .g7p) hT limit, fun e he => exec_dec_of_error (c := .g7p) he limit⟩⟩

/-- Settles O12: the packed length is above the limit exactly when the bits of the septets are. -/
theorem g7pSsplitComparesPackedLength : Obligations.G7pSsplitComparesPackedLength := by
  refine ⟨opcodeSelects_instrOf .g7p .ssplit, fun limit s => ⟨fun n hn => ?_, fun e he => ?_⟩⟩
  · have hiff : limit < packedLen n ↔ 7 * n > 8 * limit := by
      rw [← not_le, packedLen_le_iff, not_le]
    obtain ⟨hssplit, B, henc, hlen⟩ := exec_ssplit_of_ok (codecSize_g7p_ok hn) limit
    simp only [hiff] at hssplit
    exact ⟨hssplit, B, henc limit, by rw [hlen]; exact hiff⟩
  · exact (exec_ssplit_of_error (codecSize_g7p_error he) limit).1

/-- Settles O13, by the three answers of the split. -/
theorem g7pEsplitSegmentsPackedAndFilled : Obligations.G7pEsplitSegmentsPackedAndFilled := by
  refine ⟨opcodeSelects_instrOf .g7p .esplit, fun limit s =>
    ⟨fun e he => ?_, fun U hU hlong => ?_, fun U hU hfits => ?_⟩⟩
  · obtain rfl := unit7_failsOnly.lookupAll _ e he
    exact exec_esplit_of_error (c := .g7p) (split_of_units_error he)
  · exact exec_esplit_of_error (c := .g7p) (split_of_not_fits hU (by simpa [fitsPacked] using hlong))
  · obtain ⟨segs, hseg, hsplit⟩ := split_of_fits (fits := fitsPacked limit)
      (emit := fun g => pack (withFiller g.flatten)) hU (by simpa [fitsPacked] using hfits)
    refine ⟨segs, hseg, ?_⟩
    simp only [← withFiller_eq]
    exact exec_esplit_of_ok (c := .g7p) hsplit

/-! ### Reassembly in G7P (R142) -/

/-- One septet more behind those of a text is one Basic character more. -/
theorem decodeSeptets_text_concat {T : Text} {S : List Septet} {c : Septet} {cp : CodePoint}
    (h : encodeSeptets T = .ok S) (hc : basicDec c = some cp) :
    decodeSeptets ((S ++ [c]).map septetOctet) = .ok (T ++ [cp]) := by
  have hlast : decodeSeptets ([c].map septetOctet) = .ok [cp] := decodeSeptets_unit_append (unit7_of_basicDec hc) []
  rw [List.map_append, decodeSeptets_text_append h, hlast, Except.map]

/-- Septets of a text, packed, decode to the text, and to one `U+0040` more at 7 modulo 8 septets: the septet 0 is
that character (C3). -/
theorem codecDecode_pack {T : Text} {S : List Septet} (h : encodeSeptets T = .ok S) :
    codecDecode .g7p (pack S) = .ok (T ++ if S.length % 8 = 7 then [0x000040#21] else []) := by
  simp only [codecDecode, unpack_pack]
  split
  next => exact decodeSeptets_text_concat h rfl
  next => rw [List.append_nil, decodeSeptets_of_encodeSeptets h]

/-- With their filler septets never number 7 modulo 8, so packing gives them back as they are. -/
theorem unpack_pack_withFiller (S : List Septet) : unpack (pack (withFiller S)) = withFiller S := by
  rw [unpack_pack, if_neg]
  rw [withFiller_eq]
  split
  · rw [List.length_append, List.length_singleton]
    omega
  · assumption

/-- Septets of a text, filled and packed, decode to the text, and to its filler `U+000D` at 7 modulo 8 septets. -/
theorem codecDecode_pack_withFiller {T : Text} {S : List Septet} (h : encodeSeptets T = .ok S) :
    codecDecode .g7p (pack (withFiller S)) = .ok (T ++ if S.length % 8 = 7 then [0x00000D#21] else []) := by
  simp only [codecDecode, unpack_pack_withFiller]
  rw [withFiller_eq]
  split
  next => exact decodeSeptets_text_concat h rfl
  next => rw [List.append_nil, decodeSeptets_of_encodeSeptets h]

/-- Settles O39: the octets in `BIN` are the packed septets of the text. -/
theorem g7pDecReturnsWhatG7pEncEncoded : Obligations.G7pDecReturnsWhatG7pEncEncoded := by
  intro limit limit' s s' t B n henc hn hB hs'
  obtain ⟨S, hS, rfl⟩ := exceptMap_ok hn
  obtain rfl := Host.Outcome.next.inj (henc.symm.trans (exec_enc_of_ok (codecEncode_g7p_ok hS) limit))
  obtain rfl : pack S = B := by simpa using hB
  exact exec_dec_of_ok (hs' ▸ codecDecode_pack hS) limit'

/-- Settles O40: each segment is the filled and packed septets of a part of the text. -/
theorem g7pSegmentsReassemble : Obligations.G7pSegmentsReassemble := by
  intro limit s t hsplit hok
  obtain ⟨segs, hsegs, rfl⟩ := exec_esplit_ok (c := .g7p) hsplit hok
  have hlen := codecSplit_length_le hsegs
  obtain ⟨groups, parts, rfl, -, hparts, hunits⟩ := exists_parts_of_split hsegs
  refine ⟨parts, hparts, ((List.forall₂_and_left _ _).mpr ⟨hlen, List.forall₂_map_left_iff.mpr ?_⟩).flip⟩
  refine hunits.flip.imp fun group part hpart => ?_
  have hS := encodeSeptets_of_units7 hpart
  refine ⟨group.flatten.length, by rw [septetCount, hS, Except.map], pack_withFiller_length _, ?_⟩
  exact fun s' l hs' => exec_dec_of_ok (c := .g7p) (hs' ▸ codecDecode_pack_withFiller hS) l

end Sys2Proof.Machine

/-! PROOFS. The commands of UCS2 (43_ucs2.md). First the unit of a character (R160, R161); then the decoder on
octets that decode, which start with the unit of their first character; then the octets of a text, of even length
and never ending with a high surrogate; then the commands and the reassembly of their segments (R169). -/

namespace Sys2Proof.Machine

/-! ### The unit of a character, by its code point (R160 to R162) -/

theorem unitU_of_codeUnit {cp : CodePoint} (h : cp.toNat ≤ 0xD7FF ∨ (0xE000 ≤ cp.toNat ∧ cp.toNat ≤ 0xFFFF)) :
    unitU cp = .ok (unitOctets (cp.extractLsb' 0 16)) :=
  if_pos h

theorem unitU_of_supplementary {cp : CodePoint} (h : 0x10000 ≤ cp.toNat ∧ cp.toNat ≤ 0x10FFFF) :
    unitU cp = .ok (unitOctets (highSurrogate cp) ++ unitOctets (lowSurrogate cp)) := by
  rw [unitU, if_neg (by omega), if_pos h]

theorem unitU_of_not_scalarValue {cp : CodePoint} (h : ¬ scalarValue cp) :
    unitU cp = .error .unencodableCharacter := by
  rw [unitU, if_neg (by omega), if_neg (by omega)]

/-- The octets of a code point below `0x10000` are its bits 15 to 8 and 7 to 0 (R160). -/
theorem unitOctets_extractLsb' (cp : CodePoint) :
    unitOctets (cp.extractLsb' 0 16) = [cp.extractLsb' 8 8, cp.extractLsb' 0 8] := by
  simp [unitOctets, BitVec.extractLsb'_extractLsb'_of_le]

section supplementary
variable {cp : CodePoint} (h : 0x10000 ≤ cp.toNat ∧ cp.toNat ≤ 0x10FFFF)
include h

/-- The bits above bit 10 of the offset from `0x10000` make the high surrogate (R161). -/
theorem highSurrogate_eq_add :
    highSurrogate cp = 0xD800#16 + ((cp - 0x10000#21).extractLsb' 10 10).setWidth 16 := by
  have hhigh := highSurrogate_toNat h
  refine BitVec.eq_of_toNat_eq ?_
  simp only [BitVec.toNat_add, BitVec.toNat_setWidth, BitVec.extractLsb'_toNat, BitVec.toNat_sub,
    BitVec.toNat_ofNat, Nat.shiftRight_eq_div_pow]
  omega

/-- The low ten bits of the offset from `0x10000` make the low surrogate (R161). -/
theorem lowSurrogate_eq_add :
    lowSurrogate cp = 0xDC00#16 + ((cp - 0x10000#21).extractLsb' 0 10).setWidth 16 := by
  have hlow := lowSurrogate_toNat cp
  refine BitVec.eq_of_toNat_eq ?_
  simp only [BitVec.toNat_add, BitVec.toNat_setWidth, BitVec.extractLsb'_toNat, BitVec.toNat_sub,
    BitVec.toNat_ofNat, Nat.shiftRight_eq_div_pow]
  omega

end supplementary

/-- Settles O30, by the three ranges of the code point. -/
theorem ucs2UnitOfEachCharacter : Obligations.Ucs2UnitOfEachCharacter := by
  refine fun cp => ⟨fun hcp => ?codeUnit, fun hmin hmax => ?pair, unitU_of_not_scalarValue⟩
  case codeUnit => rw [unitU_of_codeUnit hcp, unitOctets_extractLsb']
  case pair =>
    have hcp : 0x10000 ≤ cp.toNat ∧ cp.toNat ≤ 0x10FFFF := ⟨hmin, hmax⟩
    have hhigh := highSurrogate_toNat hcp
    have hlow := lowSurrogate_toNat cp
    dsimp only
    rw [← highSurrogate_eq_add hcp, ← lowSurrogate_eq_add hcp]
    exact ⟨by omega, by omega, by omega, by omega, unitU_of_supplementary hcp⟩

/-! ### The decoder on octets that decode (R163) -/

theorem decodeU_eq_ok_iff {B : List Octet} {T : Text} :
    decodeU B = .ok T ↔ B.length % 2 = 0 ∧ decodeUnits (codeUnits B) = .ok T := by
  unfold decodeU
  split
  next hodd => simp [hodd]
  next heven => simp [Nat.mod_two_ne_one.mp heven]

/-- Two octets are the octets of the code unit they make. -/
theorem unitOctets_ofNat (hi lo : Octet) :
    unitOctets (BitVec.ofNat 16 (hi.toNat * 256 + lo.toNat)) = [hi, lo] := by
  have hhi : (BitVec.ofNat 16 (hi.toNat * 256 + lo.toNat)).extractLsb' 8 8 = hi := by
    refine BitVec.eq_of_toNat_eq ?_
    simp only [BitVec.extractLsb'_toNat, BitVec.toNat_ofNat, Nat.shiftRight_eq_div_pow]
    omega
  have hlo : (BitVec.ofNat 16 (hi.toNat * 256 + lo.toNat)).extractLsb' 0 8 = lo := by
    refine BitVec.eq_of_toNat_eq ?_
    simp only [BitVec.extractLsb'_toNat, BitVec.toNat_ofNat, Nat.shiftRight_zero]
    omega
  rw [unitOctets, hhi, hlo]

/-- Octets with a first code unit start with the octets of that unit. -/
theorem exists_of_codeUnits_cons {B : List Octet} {a : CodeUnit} {us : List CodeUnit}
    (h : codeUnits B = a :: us) : ∃ R, B = unitOctets a ++ R ∧ codeUnits R = us := by
  match B, h with
  | hi :: lo :: R, h =>
    obtain ⟨rfl, rfl⟩ := List.cons.inj h
    exact ⟨R, by rw [unitOctets_ofNat]; rfl, rfl⟩

/-- The character of a code unit that is no surrogate has that unit. -/
theorem unitU_setWidth {a : CodeUnit} (hhigh : ¬ (0xD800 ≤ a.toNat ∧ a.toNat ≤ 0xDBFF))
    (hlow : ¬ (0xDC00 ≤ a.toNat ∧ a.toNat ≤ 0xDFFF)) : unitU (a.setWidth 21) = .ok (unitOctets a) := by
  have hcp : (a.setWidth 21).toNat = a.toNat := by
    rw [BitVec.toNat_setWidth]
    omega
  have hback : (a.setWidth 21).extractLsb' 0 16 = a := by
    refine BitVec.eq_of_toNat_eq ?_
    rw [BitVec.extractLsb'_toNat, hcp, Nat.shiftRight_zero, Nat.mod_eq_of_lt a.isLt]
  rw [unitU_of_codeUnit (by omega), hback]

/-- The character of a surrogate pair has that pair. -/
theorem unitU_ofNat_surrogatePair {a b : CodeUnit} (ha : 0xD800 ≤ a.toNat ∧ a.toNat ≤ 0xDBFF)
    (hb : 0xDC00 ≤ b.toNat ∧ b.toNat ≤ 0xDFFF) :
    unitU (BitVec.ofNat 21 (0x10000 + (a.toNat - 0xD800) * 0x400 + (b.toNat - 0xDC00))) =
      .ok (unitOctets a ++ unitOctets b) := by
  generalize hcp : BitVec.ofNat 21 (0x10000 + (a.toNat - 0xD800) * 0x400 + (b.toNat - 0xDC00)) = cp
  have hval : cp.toNat = 0x10000 + (a.toNat - 0xD800) * 0x400 + (b.toNat - 0xDC00) := by
    rw [← hcp, BitVec.toNat_ofNat]
    omega
  have hrange : 0x10000 ≤ cp.toNat ∧ cp.toNat ≤ 0x10FFFF := by omega
  have hhigh : highSurrogate cp = a := by
    refine BitVec.eq_of_toNat_eq ?_
    rw [highSurrogate_toNat hrange]
    omega
  have hlow : lowSurrogate cp = b := by
    refine BitVec.eq_of_toNat_eq ?_
    rw [lowSurrogate_toNat]
    omega
  rw [unitU_of_supplementary hrange, hhigh, hlow]

/-- Octets that decode to a text with a first character start with the unit of that character. -/
theorem unitU_of_decodeU_cons {B : List Octet} {cp : CodePoint} {T : Text} (h : decodeU B = .ok (cp :: T)) :
    ∃ u R, unitU cp = .ok u ∧ B = u ++ R ∧ decodeU R = .ok T := by
  obtain ⟨heven, hunits⟩ := decodeU_eq_ok_iff.mp h
  suffices hfirst : ∃ u R, unitU cp = .ok u ∧ B = u ++ R ∧ decodeUnits (codeUnits R) = .ok T by
    obtain ⟨u, R, hu, rfl, hR⟩ := hfirst
    have hueven := unitU_length_even hu
    rw [List.length_append] at heven
    exact ⟨u, R, hu, rfl, decodeU_eq_ok_iff.mpr ⟨by omega, hR⟩⟩
  cases hB : codeUnits B with
  | nil => cases (hB ▸ hunits : decodeUnits [] = _)
  | cons a us =>
    obtain ⟨R, rfl, hR⟩ := exists_of_codeUnits_cons hB
    obtain ⟨b, vs, T', rfl, ha, hb, hvs, heq⟩ | ⟨T', ha, hlow, hus, heq⟩ := decodeUnits_cons_ok (hB ▸ hunits)
    · obtain ⟨rfl, rfl⟩ := List.cons.inj heq
      obtain ⟨R, rfl, rfl⟩ := exists_of_codeUnits_cons hR
      exact ⟨_, R, unitU_ofNat_surrogatePair ha hb, (List.append_assoc ..).symm, hvs⟩
    · obtain ⟨rfl, rfl⟩ := List.cons.inj heq
      exact ⟨_, R, unitU_setWidth ha hlow, rfl, hR ▸ hus⟩

/-- Only the empty sequence decodes to the empty text. -/
theorem eq_nil_of_decodeU_nil {B : List Octet} (h : decodeU B = .ok []) : B = [] := by
  obtain ⟨heven, hunits⟩ := decodeU_eq_ok_iff.mp h
  match B with
  | [] => rfl
  | [_] => simp at heven
  | hi :: lo :: R =>
    obtain ⟨_, _, _, -, -, -, -, heq⟩ | ⟨_, -, -, -, heq⟩ := decodeUnits_cons_ok hunits
    · cases heq
    · cases heq

theorem encodeU_cons {cp : CodePoint} {T : Text} {u B : List Octet} (hu : unitU cp = .ok u)
    (hT : encodeU T = .ok B) : encodeU (cp :: T) = .ok (u ++ B) := by
  obtain ⟨U, hU, rfl⟩ := exceptMap_ok hT
  exact encodeU_of_unitsU ((lookupAll_cons unitU cp T _).mpr ⟨u, U, rfl, hu, hU⟩)

/-- Octets that decode to a text are the octets of that text (R169 (b)). -/
theorem encodeU_of_decodeU {B : List Octet} {T : Text} (h : decodeU B = .ok T) : encodeU T = .ok B := by
  induction T generalizing B with
  | nil =>
    obtain rfl := eq_nil_of_decodeU_nil h
    rfl
  | cons cp T ih =>
    obtain ⟨u, R, hu, rfl, hR⟩ := unitU_of_decodeU_cons h
    exact encodeU_cons hu (ih hR)

/-- Settles O31: each way one unit of the octets for each character, by the two halves of R169. -/
theorem ucs2DecodeInvertsEncode : Obligations.Ucs2DecodeInvertsEncode := fun _ _ =>
  ⟨encodeU_of_decodeU, decodeU_of_encodeU⟩

/-! ### The octets of a text (R162) -/

theorem encodeU_length_even {T : Text} {B : List Octet} (h : encodeU T = .ok B) : B.length % 2 = 0 :=
  (decodeU_eq_ok_iff.mp (decodeU_of_encodeU h)).1

/-- The last code unit of a character is no high surrogate. -/
theorem unitU_ends {cp : CodePoint} {u : List Octet} (h : unitU cp = .ok u) :
    ∃ front a, u = front ++ unitOctets a ∧ ¬ (0xD800 ≤ a.toNat ∧ a.toNat ≤ 0xDBFF) := by
  obtain ⟨hcp, rfl⟩ | ⟨-, rfl⟩ := unitU_ok_cases h
  · refine ⟨[], _, rfl, ?_⟩
    rw [BitVec.extractLsb'_toNat, Nat.shiftRight_zero]
    omega
  · refine ⟨_, _, rfl, ?_⟩
    rw [lowSurrogate_toNat]
    omega

/-- The octets of a text do not end with a high surrogate: those of its last character do not. -/
theorem encodeU_not_ends_high {T : Text} {front : List Octet} {hi lo : Octet}
    (h : encodeU T = .ok (front ++ [hi, lo])) : ¬ (0xD8 ≤ hi.toNat ∧ hi.toNat ≤ 0xDB) := by
  obtain ⟨U, hU, hflat⟩ := exceptMap_ok h
  obtain rfl | ⟨V, u, rfl⟩ := List.eq_nil_or_concat' U
  · simp at hflat
  · obtain ⟨cp, hcp⟩ := exists_of_mem_forall₂_right ((lookupAll_ok unitU T _).mp hU) (List.mem_concat_self ..)
    obtain ⟨pre, a, rfl, ha⟩ := unitU_ends hcp
    rw [List.flatten_append, List.flatten_singleton, ← List.append_assoc] at hflat
    have hlast : unitOctets a = [hi, lo] := (List.append_inj' hflat rfl).2
    obtain rfl : a.extractLsb' 8 8 = hi := (List.cons.inj hlast).1
    rw [BitVec.extractLsb'_toNat, Nat.shiftRight_eq_div_pow]
    omega

/-! ### The commands of UCS2 -/

/-- Settles O14, by the two answers of the encoder. -/
theorem ucs2EncWritesBigEndianUnits : Obligations.Ucs2EncWritesBigEndianUnits :=
  ⟨opcodeSelects_instrOf .ucs2 .enc, fun limit _ =>
    ⟨fun _ hB => ⟨exec_enc_of_ok (c := .ucs2) hB limit, encodeU_length_even hB⟩,
      fun _ he => exec_enc_of_error (c := .ucs2) he limit⟩⟩

/-- Settles O15, by the two answers of the decoder; what it decodes are scalar values. -/
theorem ucs2DecReadsBigEndianUnits : Obligations.Ucs2DecReadsBigEndianUnits :=
  ⟨opcodeSelects_instrOf .ucs2 .dec, fun limit _ =>
    ⟨fun T hT => ⟨exec_dec_of_ok (c := .ucs2) hT limit, (decodeU_within _ T hT).2⟩,
      fun _ he => exec_dec_of_error (c := .ucs2) he limit⟩⟩

/-- Settles O16, from what SSPLIT shares with ENC. -/
theorem ucs2SsplitComparesByteLength : Obligations.Ucs2SsplitComparesByteLength := by
  refine ⟨opcodeSelects_instrOf .ucs2 .ssplit, fun limit s => ⟨fun n hn => ?_, fun e he => ?_⟩⟩
  · obtain ⟨hssplit, B, henc, hlen⟩ := exec_ssplit_of_ok (c := .ucs2) hn limit
    exact ⟨hssplit, B, henc limit, hlen⟩
  · exact (exec_ssplit_of_error (c := .ucs2) he limit).1

/-- Settles O17, by the three answers of the split. -/
theorem ucs2EsplitSegmentsWholeUnits : Obligations.Ucs2EsplitSegmentsWholeUnits := by
  refine ⟨opcodeSelects_instrOf .ucs2 .esplit, fun limit s =>
    ⟨fun e he => ?_, fun U hU hlong => ?_, fun U hU hfits => ?_⟩⟩
  · obtain rfl := unitU_failsOnly.lookupAll _ e he
    exact exec_esplit_of_error (c := .ucs2) (split_of_units_error he)
  · exact exec_esplit_of_error (c := .ucs2) (split_of_not_fits hU (by simpa [fitsOctets] using hlong))
  · obtain ⟨segs, hseg, hsplit⟩ := split_of_fits (fits := fitsOctets limit) (emit := List.flatten) hU
      (by simpa [fitsOctets] using hfits)
    exact ⟨segs, hseg, exec_esplit_of_ok (c := .ucs2) hsplit⟩

/-! ### Reassembly in UCS2 (R169) -/

/-- Settles O41: each segment is the octets of a part of the text, so it has even length, ends with no high
surrogate and decodes to that part; joined they are the octets of the text. -/
theorem ucs2SegmentsReassemble : Obligations.Ucs2SegmentsReassemble := by
  intro limit limit' s t t' hsplit hok henc
  obtain ⟨segs, hsegs, rfl⟩ := exec_esplit_ok (c := .ucs2) hsplit hok
  have hlen := codecSplit_length_le hsegs
  obtain ⟨groups, parts, rfl, hU, hparts, hunits⟩ := exists_parts_of_split hsegs
  have hocts : List.Forall₂ (fun part g => encodeU part = .ok g) parts (groups.map List.flatten) :=
    List.forall₂_map_right_iff.mpr (hunits.imp fun _ _ => encodeU_of_unitsU)
  refine ⟨?joined, fun g hg => ?segment, parts, hparts, ?decoded⟩
  case joined =>
    have hB := exec_enc_of_ok (c := .ucs2) (encodeU_of_unitsU hU) limit'
    obtain rfl := Host.Outcome.next.inj (henc.symm.trans hB)
    simp [List.flatten_flatten]
  case segment =>
    obtain ⟨part, hpart⟩ := exists_of_mem_forall₂_right hocts hg
    refine ⟨encodeU_length_even hpart, hlen g hg, ?_⟩
    rintro front hi lo rfl
    exact encodeU_not_ends_high hpart
  case decoded =>
    exact hocts.imp fun _ _ hpart _ l hs' => exec_dec_of_ok (c := .ucs2) (hs' ▸ decodeU_of_encodeU hpart) l

end Sys2Proof.Machine

/-! PROOFS. Segmentation (44_segmentation_and_capability.md). First that the walk is greedy; then which texts it
raises on, by the units of each codec; then that a text which fits is one segment, and how the filler makes that
segment differ from what ENC writes. -/

namespace Sys2Proof.Machine

/-! ### The segments of the walk are as long as they could be (R182) -/

/-- The first unit of `h` would not have fitted with `g` (R182, V5). -/
def NextWouldNotFit {υ : Type} (cost : υ → Nat) (fits : Nat → Bool) (g h : List υ) : Prop :=
  ∀ u ∈ h.head?, fits ((g.map cost).sum + cost u) = false

/-- The walk closes a segment only before a unit that would not have fitted: so it was for the closed segments
and the one being filled, which keeps its first unit as it grows. -/
theorem segmentWalk_maximal {υ : Type} {cost : υ → Nat} {fits : Nat → Bool} {U : List υ} :
    ∀ {segs out : List (List υ)} {g : List υ} {cur : Nat},
      (segs ++ [g]).IsChain (NextWouldNotFit cost fits) → cur = (g.map cost).sum → (g = [] → segs = []) →
      segmentWalk cost fits U segs g cur = .ok out → out.IsChain (NextWouldNotFit cost fits) := by
  induction U with
  | nil =>
    rintro segs out g _ hchain rfl hfirst h
    obtain rfl := Except.ok.inj h
    cases g with
    | nil => simp [hfirst]
    | cons v g => simpa using hchain
  | cons u us ih =>
    rintro segs out g _ hchain rfl hfirst h
    obtain ⟨-, ⟨hfull, hw⟩ | ⟨-, hw⟩⟩ := segmentWalk_cons_ok h
    · refine ih (hchain.append (.singleton _) ?_) (by simp) (by simp) hw
      simpa [NextWouldNotFit] using hfull
    · refine ih ?_ (by simp) (by simp) hw
      cases g with
      | nil => simp [hfirst]
      | cons v g =>
        rw [List.isChain_append] at hchain ⊢
        simpa [NextWouldNotFit] using hchain

/-- No segment but the last could have taken the unit after it. -/
theorem segment_maximal {υ : Type} {cost : υ → Nat} {fits : Nat → Bool} {U : List υ} {segs : List (List υ)}
    (h : segment cost fits U = .ok segs) : segs.IsChain (NextWouldNotFit cost fits) :=
  segmentWalk_maximal (.singleton _) rfl (fun _ => rfl) h

/-- Settles O32: each guarantee is an invariant of the walk. -/
theorem segmentKeepsWholeUnitsWithinTheLimit : Obligations.SegmentKeepsWholeUnitsWithinTheLimit := by
  refine fun υ cost fits U segs hseg => ⟨segment_flatten hseg, fun g hg => ⟨?nonempty, ?fits⟩,
    fun k g u h hk hk' => ?maximal, segment_length_le hseg⟩
  case nonempty => exact segmentWalk_ne_nil (by simp) (fun _ => rfl) hseg g hg
  case fits => exact segmentWalk_fits (by simp) rfl (by simp) hseg g hg
  case maximal =>
    obtain ⟨_, rfl⟩ := List.getElem?_eq_some_iff.mp hk
    obtain ⟨hlt, hnext⟩ := List.getElem?_eq_some_iff.mp hk'
    have hadjacent := (segment_maximal hseg).getElem k hlt
    exact hadjacent u (by rw [hnext]; rfl)

/-! ### When ESPLIT raises SegmentLimitTooSmall (R183) -/

/-- A text has a unit with a property exactly when it has a character whose unit has it. -/
theorem exists_mem_lookupAll_iff {β : Type} {unit : CodePoint → Except ErrorKind β} {t : Text} {us : List β}
    {p : β → Prop} {q : CodePoint → Prop} (hpq : ∀ {cp u}, unit cp = .ok u → (p u ↔ q cp))
    (h : lookupAll unit t = .ok us) : (∃ u ∈ us, p u) ↔ ∃ cp ∈ t, q cp := by
  induction (lookupAll_ok unit t us).mp h with
  | nil => simp
  | @cons cp u t us hu hus ih =>
    rw [List.exists_mem_cons_iff, List.exists_mem_cons_iff, ih ((lookupAll_ok unit t us).mpr hus), hpq hu]

section tooSmall
variable {β : Type} {unit : CodePoint → Except ErrorKind (List β)} {fits : Nat → Bool}
  {emit : List (List β) → List Octet} {t : Text}

/-- The walk raises SegmentLimitTooSmall exactly on a text that can be looked up and has a unit that does not fit
alone. -/
theorem split_limitTooSmall_iff {units : Text → Except ErrorKind (List (List β))}
    (herr : FailsOnlyWith .unencodableCharacter units) :
    (segmentText units fits t).map (List.map emit) = .error .segmentLimitTooSmall ↔
      ∃ U, units t = .ok U ∧ ∃ u ∈ U, fits u.length = false := by
  constructor
  · intro h
    cases hU : units t with
    | error e =>
      obtain rfl := herr t e hU
      cases h.symm.trans (split_of_units_error hU)
    | ok U =>
      refine ⟨U, rfl, by_contra fun hfits => ?_⟩
      obtain ⟨segs, -, hsegs⟩ := split_of_fits (emit := emit) hU (by simpa using hfits)
      cases h.symm.trans hsegs
  · rintro ⟨U, hU, hlong⟩
    exact split_of_not_fits hU hlong

/-- The table of R183 for one codec: where not even a short unit fits any character raises, and where no long unit
fits a character with a long unit does. -/
theorem split_limitTooSmall_table (herr : FailsOnlyWith .unencodableCharacter unit) {noShort noLong : Prop}
    {long : CodePoint → Prop}
    (hunit : ∀ {cp u}, unit cp = .ok u → (fits u.length = false ↔ noShort ∨ (noLong ∧ long cp))) :
    (segmentText (lookupAll unit) fits t).map (List.map emit) = .error .segmentLimitTooSmall ↔
      (∃ U, lookupAll unit t = .ok U) ∧ ((noShort ∧ t ≠ []) ∨ (noLong ∧ ∃ cp ∈ t, long cp)) := by
  have hchars : (∃ cp ∈ t, noShort ∨ (noLong ∧ long cp)) ↔
      (noShort ∧ t ≠ []) ∨ (noLong ∧ ∃ cp ∈ t, long cp) := by
    constructor
    · rintro ⟨cp, hcp, hshort | ⟨hlong, hcpLong⟩⟩
      · exact .inl ⟨hshort, List.ne_nil_of_mem hcp⟩
      · exact .inr ⟨hlong, cp, hcp, hcpLong⟩
    · rintro (⟨hshort, ht⟩ | ⟨hlong, cp, hcp, hcpLong⟩)
      · obtain ⟨cp, hcp⟩ := List.exists_mem_of_ne_nil t ht
        exact ⟨cp, hcp, .inl hshort⟩
      · exact ⟨cp, hcp, .inr ⟨hlong, hcpLong⟩⟩
  rw [split_limitTooSmall_iff herr.lookupAll, ← exists_and_right]
  exact exists_congr fun U => and_congr_right fun hU => (exists_mem_lookupAll_iff hunit hU).trans hchars

end tooSmall

/-- A septet unit does not fit alone when there is no room at all, or room for one septet and it is a pair. -/
theorem unit7_not_fits_iff {cp : CodePoint} {u : List Septet} (h : unit7 cp = .ok u) (limit : Nat) :
    limit < u.length ↔ limit = 0 ∨ (limit = 1 ∧ inExtension cp) := by
  obtain ⟨c, hc, rfl⟩ | ⟨c, hc, rfl⟩ := unit7_eq_ok_iff.mp h
  · have hext : ¬ inExtension cp := by simp [inExtension_iff, extEnc_of_basicDec hc]
    simp [hext]
  · have hext : inExtension cp := ⟨c, hc⟩
    simp only [List.length_cons, List.length_nil, hext, and_true]
    omega

/-- One septet or two pack into as many octets. -/
theorem packedLen_of_le_two {n : Nat} (h : n ≤ 2) : packedLen n = n := by
  rw [packedLen_eq]
  omega

/-- A UCS2 unit does not fit alone when there is no room for two octets, or none for four and it is a surrogate
pair. -/
theorem unitU_not_fits_iff {cp : CodePoint} {u : List Octet} (h : unitU cp = .ok u) (limit : Nat) :
    limit < u.length ↔ limit ≤ 1 ∨ (limit ≤ 3 ∧ 0x10000 ≤ cp.toNat) := by
  have hlen : u.length = if 0x10000 ≤ cp.toNat then 4 else 2 := by
    obtain ⟨hcp, rfl⟩ | ⟨hcp, rfl⟩ := unitU_ok_cases h
    · rw [if_neg (by omega)]
      rfl
    · rw [if_pos hcp.1]
      rfl
  split at hlen <;> omega

theorem errorStatus_eq_limit_iff {e : ErrorKind} : 0xC3#8 = errorStatus e ↔ e = .segmentLimitTooSmall := by
  cases e <;> decide

/-- ESPLIT ends with STATUS 0xC3 exactly when the walk of its codec raises it. -/
theorem exec_esplit_limitTooSmall_iff {c : Codec} {limit : Nat} {s : State} :
    exec (Instr.of c .esplit limit) s = .next (commandEnd [] [] 0x00#8 0xC3#8 s) ↔
      codecSplit c limit (textOperand s) = .error .segmentLimitTooSmall := by
  refine ⟨fun h => ?_, exec_esplit_of_error⟩
  cases hsplit : codecSplit c limit (textOperand s) with
  | ok segs =>
    have hstatus : 0xC3#8 = 0x80#8 :=
      congrArg State.status (Host.Outcome.next.inj (h.symm.trans (exec_esplit_of_ok hsplit)))
    exact absurd hstatus (by decide)
  | error e =>
    have hstatus : 0xC3#8 = errorStatus e :=
      congrArg State.status (Host.Outcome.next.inj (h.symm.trans (exec_esplit_of_error hsplit)))
    rw [errorStatus_eq_limit_iff.mp hstatus]

/-- Settles O33: the table of R183, by the lengths of the units of each codec. -/
theorem segmentLimitTooSmallConditions : Obligations.SegmentLimitTooSmallConditions := by
  refine fun limit s => ⟨?g7u, ?g7p, ?ucs2⟩
  case g7u =>
    refine (exec_esplit_limitTooSmall_iff (c := .g7u)).trans
      (split_limitTooSmall_table unit7_failsOnly fun hu => ?_)
    rw [← unit7_not_fits_iff hu, fitsOctets, decide_eq_false_iff_not, not_le]
  case g7p =>
    refine (exec_esplit_limitTooSmall_iff (c := .g7p)).trans
      (split_limitTooSmall_table unit7_failsOnly fun hu => ?_)
    rw [← unit7_not_fits_iff hu, fitsPacked, decide_eq_false_iff_not, not_le,
      packedLen_of_le_two (unit7_length_le _ _ hu)]
  case ucs2 =>
    refine (exec_esplit_limitTooSmall_iff (c := .ucs2)).trans
      (split_limitTooSmall_table unitU_failsOnly fun hu => ?_)
    rw [← unitU_not_fits_iff hu, fitsOctets, decide_eq_false_iff_not, not_le]

/-! ### A text that fits is one segment (R186) -/

/-- What fits fits with less (R181). -/
def DownwardClosed (fits : Nat → Bool) : Prop := ∀ m n, m ≤ n → fits n = true → fits m = true

theorem fitsOctets_downwardClosed (limit : Nat) : DownwardClosed (fitsOctets limit) := by
  intro m n hmn hn
  simp only [fitsOctets, decide_eq_true_eq] at *
  omega

theorem fitsPacked_downwardClosed (limit : Nat) : DownwardClosed (fitsPacked limit) := by
  intro m n hmn hn
  simp only [fitsPacked, decide_eq_true_eq, packedLen_le_iff] at *
  omega

/-- Units that fit together stay together: two segments would, being maximal, not fit together. -/
theorem segment_length_le_one {υ : Type} {cost : υ → Nat} {fits : Nat → Bool} (hdown : DownwardClosed fits)
    {U : List υ} (hfits : fits (U.map cost).sum = true) {segs : List (List υ)}
    (h : segment cost fits U = .ok segs) : segs.length ≤ 1 := by
  have hmax := segment_maximal h
  have hne : ∀ x ∈ segs, x ≠ [] := segmentWalk_ne_nil (by simp) (fun _ => rfl) h
  obtain rfl := segment_flatten h
  match segs with
  | [] | [_] => simp
  | g :: [] :: _ => simp at hne
  | g :: (u :: g') :: rest =>
    have hover : fits ((g.map cost).sum + cost u) = false := (List.isChain_cons_cons.mp hmax).1 u rfl
    have hunder : fits ((g.map cost).sum + cost u) = true := hdown _ _ (by simp) hfits
    simp [hover] at hunder

section whole
variable {β : Type} {unit : CodePoint → Except ErrorKind (List β)} {fits : Nat → Bool}
  {emit : List (List β) → List Octet} {t : Text} {segs : List (List Octet)}

/-- A text that fits as a whole is split, into at most one segment. -/
theorem split_of_whole_fits (hdown : DownwardClosed fits) {U : List (List β)} (hU : lookupAll unit t = .ok U)
    (hfits : fits U.flatten.length = true) :
    ∃ segs, (segmentText (lookupAll unit) fits t).map (List.map emit) = .ok segs ∧ segs.length ≤ 1 := by
  rw [List.length_flatten] at hfits
  have halone : ∀ u ∈ U, fits u.length = true := fun u hu =>
    hdown _ _ (List.single_le_sum (by simp) _ (List.mem_map_of_mem hu)) hfits
  obtain ⟨groups, hgroups, hsplit⟩ := split_of_fits (emit := emit) hU halone
  exact ⟨_, hsplit, by simpa using segment_length_le_one hdown hfits hgroups⟩

/-- A text split into at most one segment is empty, or that segment has all its units. -/
theorem split_length_le_one (h : (segmentText (lookupAll unit) fits t).map (List.map emit) = .ok segs)
    (hlen : segs.length ≤ 1) :
    (t = [] ∧ segs = []) ∨ ∃ U, lookupAll unit t = .ok U ∧ segs = [emit U] := by
  obtain ⟨groups, parts, rfl, hU, -, -⟩ := exists_parts_of_split h
  match groups with
  | [] => exact .inl ⟨List.eq_nil_of_length_eq_zero (lookupAll_length hU).symm, rfl⟩
  | [g] => exact .inr ⟨g, by simpa using hU, rfl⟩
  | _ :: _ :: _ => simp at hlen

end whole

/-- The octets that ESPLIT writes for a text that is one segment (R113, R139, R167). -/
def codecSegment : Codec → Text → Except ErrorKind (List Octet)
  | .g7u => codecEncode .g7u
  | .g7p => fun t => (encodeSeptets t).map (fun S => pack (withFiller S))
  | .ucs2 => codecEncode .ucs2

/-- A text for which ENC writes no more than the limit is split, into at most one segment. -/
theorem codecSplit_of_enc_fits {c : Codec} {limit : Nat} {t : Text} {B : List Octet}
    (hB : codecEncode c t = .ok B) (hfits : B.length ≤ limit) :
    ∃ segs, codecSplit c limit t = .ok segs ∧ segs.length ≤ 1 := by
  cases c with
  | g7u =>
    obtain ⟨_, hS, rfl⟩ := exceptMap_ok hB
    obtain ⟨U, hU, rfl⟩ := exceptMap_ok hS
    rw [List.length_map] at hfits
    exact split_of_whole_fits (fitsOctets_downwardClosed limit) hU (decide_eq_true hfits)
  | g7p =>
    obtain ⟨_, hS, rfl⟩ := exceptMap_ok hB
    obtain ⟨U, hU, rfl⟩ := exceptMap_ok hS
    rw [pack_length] at hfits
    exact split_of_whole_fits (fitsPacked_downwardClosed limit) hU (decide_eq_true hfits)
  | ucs2 =>
    obtain ⟨U, hU, rfl⟩ := exceptMap_ok hB
    exact split_of_whole_fits (fitsOctets_downwardClosed limit) hU (decide_eq_true hfits)

/-- A text split into at most one segment is empty, or that segment is the one of the whole text. -/
theorem codecSplit_length_le_one {c : Codec} {limit : Nat} {t : Text} {segs : List (List Octet)}
    (h : codecSplit c limit t = .ok segs) (hlen : segs.length ≤ 1) :
    (t = [] ∧ segs = []) ∨ ∃ g, codecSegment c t = .ok g ∧ segs = [g] := by
  cases c with
  | g7u =>
    refine (split_length_le_one h hlen).imp_right fun ⟨U, hU, hsegs⟩ => ⟨_, ?_, hsegs⟩
    exact codecEncode_g7u_ok (encodeSeptets_of_units7 hU)
  | g7p =>
    refine (split_length_le_one h hlen).imp_right fun ⟨U, hU, hsegs⟩ => ⟨_, ?_, hsegs⟩
    simp [codecSegment, encodeSeptets_of_units7 hU, Except.map]
  | ucs2 =>
    refine (split_length_le_one h hlen).imp_right fun ⟨U, hU, hsegs⟩ => ⟨_, ?_, hsegs⟩
    exact encodeU_of_unitsU hU

/-! ### The filler in the last octet (R135, R186) -/

/-- A septet above the lowest bit of an octet. -/
theorem getLsbD_shifted_septet (c : Septet) (j : Nat) :
    (c.setWidth 8 <<< 1 : Octet).getLsbD (j + 1) = c.getLsbD j := by
  rcases lt_or_ge j 7 with hj | hj
  · have hlt : j + 1 < 8 := Nat.succ_lt_succ hj
    simp [hj, hlt]
  · rw [BitVec.getLsbD_of_ge c j hj, BitVec.getLsbD_of_ge _ _ (Nat.succ_le_succ hj)]

/-- Septets that leave seven bits free: one septet more makes no octet more, it stands in the last one above the
one bit that was taken. -/
theorem pack_concat_of_full {S : List Septet} (h : S.length % 8 = 7) (c : Septet) :
    ∃ front b, pack S = front ++ [b] ∧ b.toNat < 2 ∧
      pack (S ++ [c]) = front ++ [b ||| c.setWidth 8 <<< 1] := by
  obtain hnil | ⟨front, b, hB⟩ := List.eq_nil_or_concat' (pack S)
  · have hlen := congrArg List.length hnil
    rw [pack_length, packedLen_eq, List.length_nil] at hlen
    omega
  have hfront : 7 * S.length = 8 * front.length + 1 := by
    have hlen := congrArg List.length hB
    rw [pack_length, packedLen_eq, List.length_append, List.length_singleton] at hlen
    omega
  have hbits (k : Nat) :
      streamBit S k = if k < 8 * front.length then streamBit front k else b.getLsbD (k - 8 * front.length) := by
    rw [← streamBit_pack, hB, streamBit_concat (by decide)]
  have hfree (j : Nat) : b.getLsbD (j + 1) = false := by
    have hpast := streamBit_ge S (k := 8 * front.length + (j + 1)) (by decide) (by omega)
    simpa [hbits] using hpast
  refine ⟨front, b, hB, Nat.lt_pow_two_of_testBit (n := 1) _ fun j hj => ?small,
    eq_of_streamBit_eq ?length fun k => ?bits⟩
  case small =>
    obtain ⟨j, rfl⟩ := Nat.exists_eq_add_of_le' hj
    rw [BitVec.testBit_toNat, hfree]
  case length =>
    simp only [pack_length, packedLen_eq, List.length_append, List.length_singleton]
    omega
  case bits =>
    rw [streamBit_pack, streamBit_concat (by decide), streamBit_concat (by decide), hfront, hbits]
    rcases lt_or_ge k (8 * front.length) with hk | hk
    · rw [if_pos (by omega), if_pos hk, if_pos hk]
    · obtain ⟨j, rfl⟩ := Nat.exists_eq_add_of_le hk
      cases j with
      | zero => simp
      | succ j =>
        rw [if_neg (by omega), if_neg (by omega), Nat.add_sub_cancel_left, BitVec.getLsbD_or, hfree,
          getLsbD_shifted_septet, Bool.false_or, ← Nat.add_assoc, Nat.add_right_comm, Nat.add_sub_cancel_left]

/-- `g` is `B` but for the filler: seven bits of the last octet of `B` are free and hold the filler in `g`. -/
def DiffersByFiller (B g : List Octet) : Prop :=
  B.length % 7 = 0 ∧ ∃ front b, B = front ++ [b] ∧ b.toNat < 2 ∧ g = front ++ [b ||| 0x1A#8]

theorem DiffersByFiller.ne {B g : List Octet} (h : DiffersByFiller B g) : g ≠ B := by
  obtain ⟨-, front, b, rfl, hb, rfl⟩ := h
  intro heq
  obtain rfl | rfl : b = 0#8 ∨ b = 1#8 := by bv_omega
  all_goals simp at heq

theorem pack_withFiller_differsByFiller {S : List Septet} (h : S.length % 8 = 7) :
    DiffersByFiller (pack S) (pack (withFiller S)) := by
  obtain ⟨front, b, hB, hb, hg⟩ := pack_concat_of_full h crSeptet
  refine ⟨by rw [pack_length, packedLen_eq]; omega, front, b, hB, hb, ?_⟩
  rw [withFiller_eq, if_pos h]
  exact hg

/-! ### SSPLIT and ESPLIT agree (R186) -/

section agree
variable {c : Codec} {t : Text} {B g : List Octet}

/-- What ESPLIT writes for a text that is one segment: what ENC writes, or that with the filler, for the packed
form at 7 modulo 8 septets. -/
theorem codecSegment_cases (hB : codecEncode c t = .ok B) (hg : codecSegment c t = .ok g) :
    (g = B ∧ (c = .g7p → ∀ n, septetCount t = .ok n → n % 8 ≠ 7)) ∨
      (DiffersByFiller B g ∧ c = .g7p ∧ ∀ n, septetCount t = .ok n → n % 8 = 7) := by
  cases c with
  | g7u | ucs2 => exact .inl ⟨Except.ok.inj (hg.symm.trans hB), nofun⟩
  | g7p =>
    obtain ⟨S, hS, rfl⟩ := exceptMap_ok hB
    obtain rfl : pack (withFiller S) = g := by simpa [codecSegment, hS, Except.map] using hg
    have hcount : septetCount t = .ok S.length := by rw [septetCount, hS, Except.map]
    by_cases hfull : S.length % 8 = 7
    · exact .inr ⟨pack_withFiller_differsByFiller hfull, rfl, by simpa [hcount] using hfull⟩
    · exact .inl ⟨by rw [withFiller_eq, if_neg hfull], by simpa [hcount] using hfull⟩

theorem codecSegment_length (hB : codecEncode c t = .ok B) (hg : codecSegment c t = .ok g) :
    g.length = B.length := by
  obtain ⟨rfl, -⟩ | ⟨⟨-, front, b, rfl, -, rfl⟩, -⟩ := codecSegment_cases hB hg
  · rfl
  · simp

theorem codecEncode_nil (c : Codec) : codecEncode c [] = .ok [] := by
  cases c <;> rfl

/-- A text is split into at most one segment exactly when what ENC writes for it is within the limit. -/
theorem codecSplit_length_le_one_iff {limit : Nat} {segs : List (List Octet)} (hB : codecEncode c t = .ok B)
    (hsegs : codecSplit c limit t = .ok segs) : B.length ≤ limit ↔ segs.length ≤ 1 := by
  constructor
  · intro hfits
    obtain ⟨segs', hsegs', hlen⟩ := codecSplit_of_enc_fits hB hfits
    rwa [Except.ok.inj (hsegs.symm.trans hsegs')]
  · intro hlen
    obtain ⟨rfl, -⟩ | ⟨g, hg, rfl⟩ := codecSplit_length_le_one hsegs hlen
    · simp [← Except.ok.inj ((codecEncode_nil c).symm.trans hB)]
    · rw [← codecSegment_length hB hg]
      exact codecSplit_length_le hsegs g (List.mem_singleton_self g)

/-- An SSPLIT that raises nothing tells whether what ENC writes is within the limit. -/
theorem exec_ssplit_ok {limit : Nat} {s u : State} (h : exec (Instr.of c .ssplit limit) s = .next u)
    (hok : u.status = 0x80#8) :
    ∃ B, codecEncode c (textOperand s) = .ok B ∧ (u.result = 0x00#8 ↔ B.length ≤ limit) := by
  have hsize := codecSize_eq c (textOperand s)
  cases hB : codecEncode c (textOperand s) with
  | error e =>
    rw [hB] at hsize
    obtain rfl := Host.Outcome.next.inj (h.symm.trans (exec_ssplit_of_error hsize limit).1)
    exact absurd hok (errorStatus_ne_ok .unencodableCharacter)
  | ok B =>
    rw [hB] at hsize
    obtain rfl := Host.Outcome.next.inj (h.symm.trans (exec_ssplit_of_ok hsize limit).1)
    exact ⟨B, rfl, by simp⟩

end agree

/-- Settles O36: SSPLIT compares what ENC writes with the limit, and within it ESPLIT writes one segment, of the
same length. -/
theorem ssplitAndEsplitAgree : Obligations.SsplitAndEsplitAgree := by
  intro c limit limit' s t t' t'' hssplit hok hesplit henc
  obtain ⟨B, hB, hresult⟩ := exec_ssplit_ok hssplit hok
  obtain rfl := Host.Outcome.next.inj (henc.symm.trans (exec_enc_of_ok hB limit'))
  rw [hresult]
  refine ⟨fun hfits => ?completes, fun hok' => ?count, fun hfits htext => ?segment⟩
  case completes =>
    obtain ⟨segs, hsegs, -⟩ := codecSplit_of_enc_fits hB hfits
    obtain rfl := Host.Outcome.next.inj (hesplit.symm.trans (exec_esplit_of_ok hsegs))
    rfl
  case count =>
    obtain ⟨segs, hsegs, rfl⟩ := exec_esplit_ok hesplit hok'
    exact codecSplit_length_le_one_iff hB hsegs
  case segment =>
    obtain ⟨segs, hsegs, hlen⟩ := codecSplit_of_enc_fits hB hfits
    obtain rfl := Host.Outcome.next.inj (hesplit.symm.trans (exec_esplit_of_ok hsegs))
    obtain ⟨hnil, -⟩ | ⟨g, hg, rfl⟩ := codecSplit_length_le_one hsegs hlen
    · exact absurd hnil htext
    refine ⟨g, B, rfl, rfl, ?_⟩
    obtain ⟨rfl, hcount⟩ | ⟨hdiff, hc, hcount⟩ := codecSegment_cases hB hg
    · exact ⟨.inl rfl, fun hc n hn => by simpa using hcount hc n hn⟩
    · exact ⟨.inr ⟨hc, hdiff⟩, fun _ n hn => iff_of_true hdiff.ne (hcount n hn)⟩

end Sys2Proof.Machine

/-! PROOFS. Errors and their reporting (60_exceptions.md): that a command which ends in an error leaves no output,
that nothing of a command is sticky, and that ESPLIT looks the whole text up before it tests a unit against the
limit. -/

namespace Sys2Proof.Machine

/-! ### What an error leaves (R206) -/

/-- A command that ends with `STATUS.ERR` set has raised one of the errors. -/
theorem CommandLeaves.eq_raise_of_err {i : Instr} {segs : List (List Octet)} {text : Text} {r v : BitVec 8}
    (h : CommandLeaves i segs text r v) (herr : statusErr v = true) (s : State) :
    ∃ e, commandEnd segs text r v s = raise e s := by
  cases h with
  | encoded | decoded | compared | segmented | identified => exact absurd herr (by decide)
  | unencodable => exact ⟨.unencodableCharacter, rfl⟩
  | malformed => exact ⟨.malformedInput, rfl⟩
  | limitTooSmall => exact ⟨.segmentLimitTooSmall, rfl⟩

/-- A reserved command word raises IllegalCommand (R74, R204). -/
theorem issue_of_reserved {cw : CommandWord} {r : Reserved} (h : decode cw = .error r) (s : State) :
    issue cw s = .next (raise .illegalCommand s) := by
  rw [issue, h]

/-- Settles O45: what a command can leave with ERR set is what `raise` leaves, and so for a reserved word. -/
theorem errorLeavesNoPartialOutput : Obligations.ErrorLeavesNoPartialOutput := by
  refine ⟨fun i s t hexec herr => ?_, fun cw r s hreserved => issue_of_reserved hreserved s⟩
  obtain ⟨segs, text, r, v, hleaves, rfl⟩ := exec_next hexec
  exact hleaves.eq_raise_of_err herr s

/-! ### Nothing is sticky (R33, R208) -/

/-- What the outputs held before a command makes no difference to it. -/
theorem exec_commandEnd (i : Instr) (segs : List (List Octet)) (text : Text) (r v : BitVec 8) (s : State) :
    exec i (commandEnd segs text r v s) = exec i s := by
  obtain ⟨segs', text', r', v', hs, hend⟩ :=
    outputsDependOnOperandsAlone i s (commandEnd segs text r v s) rfl rfl
  rw [hs, hend, commandEnd_commandEnd]

/-- Settles O48: the command between writes only the outputs, which the reissued one does not read. -/
theorem reissuedCommandGivesTheSameState : Obligations.ReissuedCommandGivesTheSameState := by
  intro i j s t u hi hj
  obtain ⟨segs, text, r, v, -, rfl⟩ := exec_next hj
  rw [exec_commandEnd, hi]

/-! ### UnencodableCharacter before SegmentLimitTooSmall (R207) -/

theorem exceptMap_eq_error_iff {ε α β : Type} {f : α → β} {x : Except ε α} {e : ε} :
    x.map f = .error e ↔ x = .error e := by
  refine ⟨exceptMap_error, ?_⟩
  rintro rfl
  rfl

/-- The walk never raises UnencodableCharacter, so a split does exactly when its lookup does. -/
theorem split_unencodable_iff {β : Type} {units : Text → Except ErrorKind (List (List β))} {fits : Nat → Bool}
    {emit : List (List β) → List Octet} {t : Text} :
    (segmentText units fits t).map (List.map emit) = .error .unencodableCharacter ↔
      units t = .error .unencodableCharacter :=
  ⟨fun h => (segmentText_error (exceptMap_error h)).resolve_right nofun, split_of_units_error⟩

/-- ESPLIT and ENC of one codec look the same units up. -/
theorem codecSplit_unencodable_iff {c : Codec} {limit : Nat} {t : Text} :
    codecSplit c limit t = .error .unencodableCharacter ↔
      codecEncode c t = .error .unencodableCharacter := by
  cases c with
  | g7u | g7p => exact split_unencodable_iff.trans (exceptMap_eq_error_iff.trans exceptMap_eq_error_iff).symm
  | ucs2 => exact split_unencodable_iff.trans exceptMap_eq_error_iff.symm

theorem errorStatus_eq_unencodable_iff {e : ErrorKind} :
    errorStatus e = 0xC1#8 ↔ e = .unencodableCharacter := by
  cases e <;> decide

/-- Settles O34: a text that ENC refuses ESPLIT refuses with the same error, and on a text that ENC accepts no
error of ESPLIT is UnencodableCharacter. -/
theorem unencodableComesBeforeLimitTooSmall : Obligations.UnencodableComesBeforeLimitTooSmall := by
  intro c limit limit' s
  cases henc : codecEncode c (textOperand s) with
  | error e =>
    obtain rfl := codecEncode_failsOnly c _ e henc
    have hsplit := (codecSplit_unencodable_iff (limit := limit)).mpr henc
    exact ⟨_, _, exec_esplit_of_error hsplit, exec_enc_of_error henc limit', by simp⟩
  | ok B =>
    cases hsplit : codecSplit c limit (textOperand s) with
    | ok segs => exact ⟨_, _, exec_esplit_of_ok hsplit, exec_enc_of_ok henc limit', by simp⟩
    | error e =>
      have hne : e ≠ .unencodableCharacter := by
        rintro rfl
        cases henc.symm.trans (codecSplit_unencodable_iff.mp hsplit)
      exact ⟨_, _, exec_esplit_of_error hsplit, exec_enc_of_ok henc limit',
        by simp [errorStatus_eq_unencodable_iff, hne]⟩

end Sys2Proof.Machine

/-! PROOFS. Reset and the loading of an operand (70_reset_and_hazards.md): the state after a reset, and that the
host's element writes followed by the length write make the loaded elements the operand. -/

namespace Sys2Proof.Machine

/-! ### Reset (R34, R230) -/

theorem textOperand_eq_nil {s : State} (h : s.tinLen = 0) : textOperand s = [] := by
  rw [textOperand, h, List.range_zero, List.map_nil]

theorem byteOperand_eq_nil {s : State} (h : s.binLen = 0) : byteOperand s = [] := by
  rw [byteOperand, h, List.range_zero, List.map_nil]

/-- Settles O49: the registers are 0, so the operands are empty, and both buffers are empty memories. -/
theorem resetLeavesTheSpecifiedValues : Obligations.ResetLeavesTheSpecifiedValues :=
  ⟨rfl, rfl, rfl, rfl, rfl, rfl, textOperand_eq_nil rfl, byteOperand_eq_nil rfl,
    fun i => ⟨Memory.lookup_nil i, Memory.lookup_nil i⟩⟩

/-- Settles O50: the reset move answers `resetBlock`, whose length registers are 0. -/
theorem resetMoveRestoresTheResetState : Obligations.ResetMoveRestoresTheResetState := fun s =>
  ⟨resetBlock s, rfl, rfl, textOperand_eq_nil (resetBlock_tinLen s), byteOperand_eq_nil (resetBlock_binLen s)⟩

/-! ### A buffer after the writes of consecutive elements (R53) -/

/-- The memory that the writes of `vs` at consecutive indices from `i` on leave. -/
def Memory.writeFrom {w : Nat} : Memory w → Nat → List (BitVec w) → Memory w
  | m, _, [] => m
  | m, i, v :: vs => Memory.writeFrom (Memory.write m i v) (i + 1) vs

/-- Writes from `i` on leave every index below `i` alone. -/
theorem Memory.lookup_writeFrom_of_lt {w i j : Nat} (hj : j < i) (vs : List (BitVec w)) (m : Memory w) :
    Memory.lookup (Memory.writeFrom m i vs) j = Memory.lookup m j := by
  induction vs generalizing m i with
  | nil => rfl
  | cons v vs ih =>
    rw [Memory.writeFrom, ih (Nat.lt_succ_of_lt hj), Memory.lookup_write_other m v (Nat.ne_of_lt hj)]

/-- Each value written is read back at its index: the later writes are all above it. -/
theorem Memory.lookup_writeFrom {w k : Nat} {v : BitVec w} {vs : List (BitVec w)} (hk : vs[k]? = some v)
    (m : Memory w) (i : Nat) : Memory.lookup (Memory.writeFrom m i vs) (i + k) = some v := by
  induction vs generalizing m i k with
  | nil => simp at hk
  | cons x vs ih =>
    cases k with
    | zero =>
      obtain rfl : x = v := by simpa using hk
      rw [Nat.add_zero i, Memory.writeFrom, Memory.lookup_writeFrom_of_lt (Nat.lt_succ_self i),
        Memory.lookup_write_self]
    | succ k =>
      have htail : vs[k]? = some v := by simpa using hk
      rw [Memory.writeFrom, show i + (k + 1) = i + 1 + k by omega, ih htail]

/-! ### The host's moves that load an operand (R62, R231) -/

theorem hostMoves_cons_of_next {m : HostMove} {s t : State} (h : hostMove m s = .next t) (ms : List HostMove) :
    hostMoves (m :: ms) s = hostMoves ms t := by
  rw [hostMoves, h]

theorem hostMoves_cons_of_refused {m : HostMove} {s : State} {r : Refusal} (h : hostMove m s = .refused r)
    (ms : List HostMove) : hostMoves (m :: ms) s = .refused r := by
  rw [hostMoves, h]

/-- Said once for both input buffers, where `put m s` is `s` with `m` in the buffer that `write` writes: the
element writes reach the moves after them exactly when the last index lies below the capacity, and store the
elements. -/
theorem hostMoves_elementWrites {w cap : Nat} {write : Nat → BitVec w → HostMove} {refusal : Refusal}
    {put : Memory w → State → State}
    (hwrite : ∀ i v m s, hostMove (write i v) (put m s) =
      if i < cap then .next (put (Memory.write m i v) s) else .refused refusal)
    (vs : List (BitVec w)) (rest : List HostMove) (s : State) {i : Nat} (hi : i ≤ cap) (m : Memory w) :
    hostMoves (elementWrites write i vs ++ rest) (put m s) =
      if i + vs.length ≤ cap then hostMoves rest (put (Memory.writeFrom m i vs) s) else .refused refusal := by
  induction vs generalizing i m with
  | nil => exact (if_pos hi).symm
  | cons v vs ih =>
    have hlen : i + (v :: vs).length = i + 1 + vs.length := by rw [List.length_cons]; omega
    rw [elementWrites, List.cons_append, Memory.writeFrom, hlen]
    by_cases hlt : i < cap
    · rw [hostMoves_cons_of_next ((hwrite i v m s).trans (if_pos hlt)), ih hlt]
    · rw [hostMoves_cons_of_refused ((hwrite i v m s).trans (if_neg hlt)), if_neg (by omega)]

theorem hostMove_writeTinLen {n : Nat} (h : n ≤ Config.tMax) (s : State) :
    hostMove (.writeTinLen n) s = .next (setTinLen n s) :=
  if_pos h

theorem hostMove_writeBinLen {n : Nat} (h : n ≤ Config.bMax) (s : State) :
    hostMove (.writeBinLen n) s = .next (setBinLen n s) :=
  if_pos h

theorem hostMoves_loadText (t : Text) (s : State) : hostMoves (loadText t) s =
    if t.length ≤ Config.tMax then .next (setTinLen t.length { s with tin := Memory.writeFrom s.tin 0 t })
    else .refused .beyondTextCapacity := by
  have hwrites := hostMoves_elementWrites (write := .writeTin) (refusal := .beyondTextCapacity)
    (put := fun m s => { s with tin := m }) (fun _ _ _ _ => rfl) t [.writeTinLen t.length] s
    (Nat.zero_le Config.tMax) s.tin
  rw [Nat.zero_add] at hwrites
  refine hwrites.trans (ite_congr rfl (fun hfits => ?_) fun _ => rfl)
  exact hostMoves_cons_of_next (hostMove_writeTinLen hfits _) []

theorem hostMoves_loadOctets (b : List Octet) (s : State) : hostMoves (loadOctets b) s =
    if b.length ≤ Config.bMax then .next (setBinLen b.length { s with bin := Memory.writeFrom s.bin 0 b })
    else .refused .beyondByteCapacity := by
  have hwrites := hostMoves_elementWrites (write := .writeBin) (refusal := .beyondByteCapacity)
    (put := fun m s => { s with bin := m }) (fun _ _ _ _ => rfl) b [.writeBinLen b.length] s
    (Nat.zero_le Config.bMax) s.bin
  rw [Nat.zero_add] at hwrites
  refine hwrites.trans (ite_congr rfl (fun hfits => ?_) fun _ => rfl)
  exact hostMoves_cons_of_next (hostMove_writeBinLen hfits _) []

/-! ### The loaded operand (R22, R23, R231) -/

/-- A text whose elements are stored from index 0 is the operand once the length register is written: no stored
element is lost, whether that lowers or raises the register (log entry 4). -/
theorem textOperand_setTinLen {t : Text} {s : State}
    (h : ∀ i v, t[i]? = some v → Memory.lookup s.tin i = some v) :
    textOperand (setTinLen t.length s) = t := by
  have hlen : (setTinLen t.length s).tinLen = t.length := by rw [setTinLen_frame]
  refine List.ext_getElem? fun i => ?_
  rw [textOperand_getElem?, hlen]
  split
  next hi =>
    have hstored := h i t[i] (List.getElem?_eq_getElem hi)
    rw [readTin_eq, lookup_setTinLen hi, hstored, Option.getD_some, List.getElem?_eq_getElem hi]
  next hi => rw [List.getElem?_eq_none (Nat.le_of_not_lt hi)]

/-- As `textOperand_setTinLen`, for `BIN`. -/
theorem byteOperand_setBinLen {b : List Octet} {s : State}
    (h : ∀ i v, b[i]? = some v → Memory.lookup s.bin i = some v) :
    byteOperand (setBinLen b.length s) = b := by
  have hlen : (setBinLen b.length s).binLen = b.length := by rw [setBinLen_frame]
  refine List.ext_getElem? fun i => ?_
  rw [byteOperand_getElem?, hlen]
  split
  next hi =>
    have hstored := h i b[i] (List.getElem?_eq_getElem hi)
    rw [readBin_eq, lookup_setBinLen hi, hstored, Option.getD_some, List.getElem?_eq_getElem hi]
  next hi => rw [List.getElem?_eq_none (Nat.le_of_not_lt hi)]

/-- For writes that start at index 0 the index in the list is the index in the buffer. -/
theorem Memory.lookup_writeFrom_zero {w : Nat} (vs : List (BitVec w)) (m : Memory w) (i : Nat) (v : BitVec w)
    (h : vs[i]? = some v) : Memory.lookup (Memory.writeFrom m 0 vs) i = some v := by
  simpa using Memory.lookup_writeFrom h m 0

/-- Settles O53: the element writes store the text (octets) from index 0, and the length write makes what is
stored below it the operand. -/
theorem loadedOperandIsRead : Obligations.LoadedOperandIsRead := by
  refine ⟨fun t s => ?_, fun b s => ?_⟩
  · rw [hostMoves_loadText]
    split
    next => exact ⟨_, rfl, textOperand_setTinLen (Memory.lookup_writeFrom_zero t s.tin), setTinLen_frame _ _⟩
    next => rfl
  · rw [hostMoves_loadOctets]
    split
    next => exact ⟨_, rfl, byteOperand_setBinLen (Memory.lookup_writeFrom_zero b s.bin), setBinLen_frame _ _⟩
    next => rfl

end Sys2Proof.Machine
